-- ==== Sys2Proof/Word.lean ====
section
/-! DEFINITION. The value types of the machine (spec 00_scope R8, R10, R11): widths only, no behaviour. -/

namespace Sys2Proof

/-- An 8-bit unsigned value: a general register, a timer, a memory byte (R8 `V_WIDTH`, `TIMER_WIDTH`; R60). -/
abbrev Byte := BitVec 8

/-- A 16-bit unsigned value: I, PC, a return address, an opcode word (R8 `I_WIDTH`, `PC_WIDTH`; R80). -/
abbrev Word := BitVec 16

/-- An index into the 4096-byte store, and the `nnn` field of an opcode (R60, R81). -/
abbrev Addr := BitVec 12

/-- A 4-bit field of an opcode (R81). -/
abbrev Nibble := BitVec 4

/-- The number of a general register, 0x0 to 0xF (R21). -/
abbrev RegIdx := Fin 16

/-- The number of a key, 0x0 to 0xF (R32). -/
abbrev KeyIdx := Fin 16

/-- The number of VF, which is both a general register and the flag register (R22). -/
abbrev VF : RegIdx := 15

end Sys2Proof
end

