-- ==== Sys2Proof/Config.lean ====
section
/-! DEFINITION. What an implementation fixes: the constants of R8, the types of the open parameters of R9, and the one
free value of the model, the random byte of RND (R9 `RandomByte`, R12, R162). The parameters' DEFAULT VALUES stand in
Machine/Parameters.lean. -/

namespace Sys2Proof

/-- `MEM_SIZE` (R8): the store has addresses 0 to 4095. -/
abbrev memSize : Nat := 4096

/-- `STACK_DEPTH` (R8). -/
abbrev stackDepth : Nat := 16

/-- `DISPLAY_W` (R8). -/
abbrev displayW : Nat := 64

/-- `DISPLAY_H` (R8). -/
abbrev displayH : Nat := 32

/-- `NUM_KEYS` (R8). -/
abbrev numKeys : Nat := 16

/-- `PROGRAM_START` (R8): the ROM's first byte and the reset PC. -/
abbrev programStart : Nat := 0x200

/-- The largest ROM the loader accepts, 0x1000 − 0x200 bytes (R296, R278). -/
abbrev romCapacity : Nat := memSize - programStart

/-- The number of font bytes: 16 glyphs of 5 bytes (R41). -/
abbrev fontSize : Nat := 80

/-- `INVALID_OPCODE_POLICY` (R9, R260): what the host does after an InvalidOpcode. -/
inductive InvalidOpcodePolicy where
  | halt
  | skip
  deriving DecidableEq, Repr

/-- `SHIFT_SOURCE` (R9, R159, R161): the register SHR and SHL shift. -/
inductive ShiftSource where
  | vx
  | vy
  deriving DecidableEq, Repr

/-- `DRW_ROW_EDGE` (R9, R203): what DRW does with rows past row 31. -/
inductive RowEdge where
  | wrap
  | clip
  deriving DecidableEq, Repr

/-- The open parameters of R9, each under its own name. They are fixed for a machine: no instruction and no host action
changes them (R37). `TIMER_HZ` is informative only and has no field; `RandomByte` is the free value below. -/
structure Config where
  /-- `STRICT_DECODE` (R84). -/
  strictDecode : Bool
  /-- `INVALID_OPCODE_POLICY` (R260). -/
  invalidOpcodePolicy : InvalidOpcodePolicy
  /-- `SHIFT_SOURCE` (R159, R161). -/
  shiftSource : ShiftSource
  /-- `LOGIC_RESETS_VF` (R154 to R156). -/
  logicResetsVF : Bool
  /-- `LOAD_STORE_INCREMENTS_I` (R185, R186). -/
  loadStoreIncrementsI : Bool
  /-- `JUMP_WITH_VX` (R138). -/
  jumpWithVX : Bool
  /-- `DRW_ROW_EDGE` (R203). -/
  drwRowEdge : RowEdge
  /-- `FONT_BASE` (R9: an address 0 .. 4095 − 80). -/
  fontBase : Fin (memSize - fontSize)
  /-- `FONT_DATA` (R41: the glyph of digit d is bytes 5·d to 5·d + 4). -/
  fontData : Vector Byte fontSize
  deriving DecidableEq, Repr

/-- FREE VALUE (log entry 2): the byte that `RandomByte()` returns at the n-th draw. Nothing constrains it (R12, R162,
D19: "an arbitrary byte 0..255, chosen afresh on each use"). -/
opaque Config.randomByte : Nat → Byte

end Sys2Proof
end

