-- ==== Sys2Proof/Machine/Parameters.lean ====
section
/-! DEFINITION. The defaults that the spec takes for the open parameters of R9, and the default font of R41. -/

namespace Sys2Proof.Machine

/-- The conventional glyphs of the digits 0 to F, top row first (R41, default of `FONT_DATA`). -/
def fontGlyphs : List (List Byte) :=
  [[0xF0, 0x90, 0x90, 0x90, 0xF0], [0x20, 0x60, 0x20, 0x20, 0x70],
   [0xF0, 0x10, 0xF0, 0x80, 0xF0], [0xF0, 0x10, 0xF0, 0x10, 0xF0]] ++
  [[0x90, 0x90, 0xF0, 0x10, 0x10], [0xF0, 0x80, 0xF0, 0x10, 0xF0],
   [0xF0, 0x80, 0xF0, 0x90, 0xF0], [0xF0, 0x10, 0x20, 0x40, 0x40]] ++
  [[0xF0, 0x90, 0xF0, 0x90, 0xF0], [0xF0, 0x90, 0xF0, 0x10, 0xF0],
   [0xF0, 0x90, 0xF0, 0x90, 0x90], [0xE0, 0x90, 0xE0, 0x90, 0xE0]] ++
  [[0xF0, 0x80, 0x80, 0x80, 0xF0], [0xE0, 0x90, 0x90, 0x90, 0xE0],
   [0xF0, 0x80, 0xF0, 0x80, 0xF0], [0xF0, 0x80, 0xF0, 0x80, 0x80]]

/-- The default of `FONT_DATA`: the glyphs one after the other (R41). -/
def defaultFontData : Vector Byte fontSize :=
  Vector.ofFn fun k => ((fontGlyphs.getD (k.val / 5) []).getD (k.val % 5) 0)

/-- The defaults of R9. -/
def defaultConfig : Config where
  strictDecode := false
  invalidOpcodePolicy := .halt
  shiftSource := .vx
  logicResetsVF := false
  loadStoreIncrementsI := false
  jumpWithVX := false
  drwRowEdge := .wrap
  fontBase := ⟨0x050, by decide⟩
  fontData := defaultFontData

end Sys2Proof.Machine
end

