-- ==== Sys2Proof/Machine/State.lean ====
section
/-! DEFINITION. The machine state of R20, the errors of R250, and the state after reset (R38, R290). -/

namespace Sys2Proof.Machine

/-- The listed bytes of `MEM` (R36, R60), in canonical form: addresses strictly rising, no entry equal to what the
unlisted address reads as (`Memory.wf`). -/
abbrev Memory := List Host.Cell

/-- `DISP`: 32 rows of 64 bits (R20, R31). Bit c of row r is the pixel at column c, 1 for on. -/
abbrev Display := Vector (BitVec displayW) displayH

/-- `KEYS` (R32): `true` is pressed. -/
abbrev Keys := Vector Bool numKeys

/-- `Awaiting(x, prev)` of R33. -/
structure KeyWait where
  /-- `x`, the destination register. -/
  dest : RegIdx
  /-- `prev`, the keys at the last observation. -/
  seen : Keys
  deriving DecidableEq, Repr

/-- The state record of R20, then two fields of the model's own. SP is the number of entries of `stack` (R26, R40):
`State.sp` in Machine/Ops.lean. -/
structure State where
  /-- `V[0..15]` (R21). -/
  v : Vector Byte 16
  /-- `I` (R24). -/
  i : Word
  /-- `PC` (R25). -/
  pc : Word
  /-- `STACK[0..SP-1]`, the oldest entry first (R26). -/
  stack : List Word
  /-- `DT` (R29). -/
  dt : Byte
  /-- `ST` (R30). -/
  st : Byte
  /-- `MEM[0..4095]` (R36). -/
  mem : Memory
  /-- `DISP[0..31][0..63]` (R31). -/
  disp : Display
  /-- `KEYS[0..15]` (R32). -/
  keys : Keys
  /-- `WAIT` (R33). -/
  wait : Option KeyWait
  /-- MODEL'S OWN (log entry 2): how many random bytes have been drawn. -/
  draws : Nat
  /-- MODEL'S OWN PLACE (log entry 1): the machine's parameters of R9; nothing writes it. -/
  config : Config
  deriving DecidableEq, Repr

/-- The errors of R250; each ends the step with the state unchanged (R251). -/
inductive Fault where
  /-- Raised by the fetch when PC + 1 ≥ 4096, with PC (R66, R252). Safe: the spec's own error. -/
  | memoryFault (pc : Word)
  /-- Raised by the decode when the word is illegal, with the raw word (R85, R253). Safe: the spec's own error. -/
  | invalidOpcode (op : Word)
  /-- Raised by CALL when SP = 16, with the raw word (R27, R254). Safe: the spec's own error. -/
  | stackOverflow (op : Word)
  /-- Raised by RET when SP = 0, with the raw word (R28, R255). Safe: the spec's own error. -/
  | stackUnderflow (op : Word)
  deriving DecidableEq, Repr

/-- Why the model gives an instruction no meaning. -/
inductive Refusal where
  /-- Raised by an arm of `exec` without a meaning; no arm is one. Safe. -/
  | notModelled (mnemonic : String)
  deriving DecidableEq, Repr

/-- What a step answers. -/
abbrev Result := Host.Outcome State Fault Refusal

/-- The state of R38 for a machine with parameters `c`: all zero, PC = 0x200, no wait. Memory lists nothing: an unlisted
byte reads as its reset contents, the font at FONT_BASE and 0 elsewhere (`resetByte`). -/
def State.resetWith (c : Config) : State where
  v := Vector.replicate 16 0
  i := 0
  pc := BitVec.ofNat 16 programStart
  stack := []
  dt := 0
  st := 0
  mem := []
  disp := Vector.replicate displayH 0
  keys := Vector.replicate numKeys false
  wait := none
  draws := 0
  config := c

/-- The machine right after reset (R38, R290, R291), with the default parameters of R9. -/
def State.reset : State := State.resetWith defaultConfig

end Sys2Proof.Machine
end

