-- ==== Sys2Proof/Machine/Memory.lean ====
section
/-! DEFINITION. The byte store of R60: what an unlisted byte reads as, reading, writing, and the canonical form. -/

namespace Sys2Proof.Machine

/-- What an address that nothing has written reads as: the reset contents of R38, FONT_DATA from FONT_BASE on and 0
elsewhere. -/
def resetByte (c : Config) (a : Nat) : Byte :=
  if h : c.fontBase.val ≤ a ∧ a < c.fontBase.val + fontSize then c.fontData[a - c.fontBase.val] else 0

/-- The byte at `a`, where `bg` says what unlisted addresses read as. -/
def Memory.read (bg : Nat → Byte) (a : Nat) : Memory → Byte
  | [] => bg a
  | (k, b) :: rest => if k = a then b else Memory.read bg a rest

/-- `m` without any entry for the address `a`. -/
def Memory.erase (a : Nat) : Memory → Memory
  | [] => []
  | (k, b) :: rest => if k = a then Memory.erase a rest else (k, b) :: Memory.erase a rest

/-- `m` with an entry `(a, b)` before the first entry of a higher address. -/
def Memory.insert (a : Nat) (b : Byte) : Memory → Memory
  | [] => [(a, b)]
  | (k, c) :: rest => if a < k then (a, b) :: (k, c) :: rest else (k, c) :: Memory.insert a b rest

/-- `m` with the byte `b` at `a`: no entry stands for it when `b` is what `a` reads as unlisted. -/
def Memory.write (bg : Nat → Byte) (a : Nat) (b : Byte) (m : Memory) : Memory :=
  if b = bg a then Memory.erase a m else Memory.insert a b (Memory.erase a m)

/-- The canonical form: addresses strictly rising and inside the store, no entry equal to what it reads as unlisted. -/
abbrev Memory.wf (bg : Nat → Byte) (m : Memory) : Prop :=
  m.Pairwise (fun p q => p.1 < q.1) ∧ ∀ p ∈ m, p.1 < memSize ∧ p.2 ≠ bg p.1

end Sys2Proof.Machine
end

