-- ==== Sys2Proof/Machine/Ops.lean ====
section
/-! DEFINITION. The state access primitives of R12, the PC updates of R114, Push and Pop (R27, R28), and raising an
error (R250 to R259). -/

namespace Sys2Proof.Machine

/-! ### General registers (R21) -/

/-- `V[r]`. -/
def State.readV (s : State) (r : RegIdx) : Byte := s.v[r.val]

/-- `V[r] <- b`. -/
def State.writeV (s : State) (r : RegIdx) (b : Byte) : State := { s with v := s.v.set r.val b }

/-! ### Memory (R60, R64, R70) -/

/-- `MemRead(a, 1)`. -/
def State.readByte (s : State) (a : Addr) : Byte := Memory.read (resetByte s.config) a.toNat s.mem

/-- `MemWrite(a, 1, b)`; no address is protected (R70). -/
def State.writeByte (s : State) (a : Addr) (b : Byte) : State :=
  { s with mem := Memory.write (resetByte s.config) a.toNat b s.mem }

/-- The bytes of `bs` written at `a`, `a + 1`, and so on. -/
def State.writeBytes (s : State) (a : Nat) : List Byte → State
  | [] => s
  | b :: bs => (s.writeByte (BitVec.ofNat 12 a) b).writeBytes (a + 1) bs

/-! ### I, PC, the timers, the display, WAIT -/

/-- `I <- w` (R24). -/
def State.setI (s : State) (w : Word) : State := { s with i := w }

/-- `PC <- target` (R25). -/
def State.setPC (s : State) (target : Word) : State := { s with pc := target }

/-- `DT <- b` (R29). -/
def State.setDT (s : State) (b : Byte) : State := { s with dt := b }

/-- `ST <- b` (R30). -/
def State.setST (s : State) (b : Byte) : State := { s with st := b }

/-- `DISP` replaced whole, by CLS or DRW (R205). -/
def State.setDisp (s : State) (d : Display) : State := { s with disp := d }

/-- `WAIT <- w` (R33). -/
def State.setWait (s : State) (w : Option KeyWait) : State := { s with wait := w }

/-- One random byte has been drawn (R12 `RandomByte()`). -/
def State.countDraw (s : State) : State := { s with draws := s.draws + 1 }

/-- `Pix(row, col)` of a display (R200). -/
def Display.pixel (d : Display) (row : Fin displayH) (col : Fin displayW) : Bool := d[row.val].getLsbD col.val

/-- `Pix(row, col) <- Pix(row, col) ^ 1` (R200, R203). -/
def Display.flipPixel (d : Display) (row : Fin displayH) (col : Fin displayW) : Display :=
  d.set row.val (d[row.val] ^^^ BitVec.twoPow displayW col.val)

/-- `Pix(row, col)` of the machine's display. -/
def State.pixel (s : State) (row : Fin displayH) (col : Fin displayW) : Bool := s.disp.pixel row col

/-- `Key(k)`, `is_pressed(k)` (R12, R272). -/
def State.key (s : State) (k : KeyIdx) : Bool := s.keys[k.val]

/-! ### PC update (R114) -/

/-- Class NEXT: `PC <- (PC + 2) mod 65536`. -/
def State.advance (s : State) : State := s.setPC (s.pc + 2)

/-- Class SKIP: `PC <- (PC + 4) mod 65536` if the condition holds, else as NEXT. -/
def State.skipIf (s : State) (cond : Bool) : State := s.setPC (if cond then s.pc + 4 else s.pc + 2)

/-! ### The call stack (R26 to R28) -/

/-- `SP`, the number of entries on the stack, 8 bits (R26). -/
def State.sp (s : State) : Byte := BitVec.ofNat 8 s.stack.length

/-- `Push(w)`: `none` when the stack is full, before any write (R27). -/
def State.push (s : State) (w : Word) : Option State :=
  if stackDepth ≤ s.stack.length then none else some { s with stack := s.stack ++ [w] }

/-- `Pop()`: the top entry and the state without it; `none` when the stack is empty, before any write (R28). -/
def State.pop (s : State) : Option (Word × State) :=
  match s.stack.getLast? with
  | none => none
  | some t => some (t, { s with stack := s.stack.dropLast })

/-! ### Taking an error -/

/-- `raise E(info)`: the ONE way an error is taken. It enters no handler, saves nothing, changes no mode and transfers
no control inside the machine; it is the outcome of the step, and the state stays as it was (R251, R256, R259). There is
no return from it (R261); what the host does next is in Machine/HostActions.lean (R260). -/
def raise (e : Fault) : Result := .fault e

end Sys2Proof.Machine
end

