-- ==== Sys2Proof/Machine/Flags.lean ====
section
/-! DEFINITION. What VF gets when it is written as a flag (R22), and the order of that write (R13, R150). -/

namespace Sys2Proof.Machine

/-- A condition as the value 1 or 0. -/
def flagByte (b : Bool) : Byte := if b then 1 else 0

/-- The carry of ADD Vx, Vy: the exact sum is at least 256 (R157). -/
def carryFlag (a b : Byte) : Byte := flagByte (decide (256 ≤ a.toNat + b.toNat))

/-- No borrow in `a − b`: a ≥ b (R158, R160). -/
def noBorrowFlag (a b : Byte) : Byte := flagByte (decide (b.toNat ≤ a.toNat))

/-- The bit a right shift by one shifts out: bit 0 (R159). -/
def shiftedOutRight (b : Byte) : Byte := b &&& 1

/-- The bit a left shift by one shifts out: bit 7 (R161). -/
def shiftedOutLeft (b : Byte) : Byte := b >>> 7

/-- `V[x]` gets the result first and VF the flag last, so that with x = 0xF the flag remains (R13, R150). -/
def State.writeResultFlag (s : State) (x : RegIdx) (result flag : Byte) : State := (s.writeV x result).writeV VF flag

/-- `if LOGIC_RESETS_VF: V[0xF] <- 0` (R154 to R156). -/
def State.logicReset (s : State) : State := if s.config.logicResetsVF then s.writeV VF 0 else s

end Sys2Proof.Machine
end

