-- ==== Sys2Proof/Machine/Operands.lean ====
section
/-! DEFINITION. Operand forms: the one data addressing mode (R65, R180), register blocks, and the operands that a
parameter or a mask selects. -/

namespace Sys2Proof.Machine

/-- `DataAddr(k) = (I + k) mod 4096` (R65). -/
def State.dataAddr (s : State) (k : Nat) : Addr := BitVec.ofNat 12 (s.i.toNat + k)

/-- The byte at `DataAddr(k)`. -/
def State.readData (s : State) (k : Nat) : Byte := s.readByte (s.dataAddr k)

/-- `MemWrite(DataAddr(k), 1, b)`. -/
def State.writeData (s : State) (k : Nat) (b : Byte) : State := s.writeByte (s.dataAddr k) b

/-- The register numbers 0 .. x in ascending order (R185, R186). -/
def regsUpTo (x : RegIdx) : List RegIdx := (List.finRange 16).take (x.val + 1)

/-- `MemWrite(DataAddr(k), 1, V[k])` for each k of the list, in order (R185). -/
def State.storeBlock (s : State) : List RegIdx → State
  | [] => s
  | k :: ks => (s.writeData k.val (s.readV k)).storeBlock ks

/-- `V[k] <- MemRead(DataAddr(k), 1)` for each k of the list, in order (R186). -/
def State.loadBlock (s : State) : List RegIdx → State
  | [] => s
  | k :: ks => (s.writeV k (s.readData k.val)).loadBlock ks

/-- `I <- (I + x + 1) mod 65536` when `LOAD_STORE_INCREMENTS_I` (R185, R186). -/
def State.blockIncrement (s : State) (x : RegIdx) : State :=
  if s.config.loadStoreIncrementsI then s.setI (s.i + BitVec.ofNat 16 (x.val + 1)) else s

/-- The sprite bytes `MemRead(DataAddr(r), 1)` for r in 0 .. n − 1 (R201, R203). -/
def State.spriteBytes (s : State) (n : Nat) : List Byte := (List.range n).map s.readData

/-- The value SHR and SHL shift: `V[y]` when `SHIFT_SOURCE` = VY, else `V[x]` (R159, R161). -/
def State.shiftOperand (s : State) (x y : RegIdx) : Byte :=
  match s.config.shiftSource with
  | .vx => s.readV x
  | .vy => s.readV y

/-- `x = op[11:8]` of a JP V0 word, the top four bits of nnn (R138). -/
def jumpX (nnn : Addr) : RegIdx := (nnn.extractLsb' 8 4).toFin

/-- The register that JP V0 adds: V0, or `V[x]` when `JUMP_WITH_VX` (R138). -/
def State.jumpRegister (s : State) (nnn : Addr) : RegIdx := if s.config.jumpWithVX then jumpX nnn else 0

/-- `zext_16(nnn)` (R83). -/
def zextAddr (nnn : Addr) : Word := nnn.setWidth 16

/-- `b` as a 16-bit addend. -/
def zextByte (b : Byte) : Word := b.setWidth 16

/-- The low nibble of a register's value: a key number or a font digit (R183, R220). -/
def lowNibble (b : Byte) : Fin 16 := (b.extractLsb' 0 4).toFin

/-- `FONT_BASE + 5 * d` (R183). -/
def State.glyphAddr (s : State) (d : Fin 16) : Word := BitVec.ofNat 16 (s.config.fontBase.val + 5 * d.val)

/-- The decimal digits of an unsigned byte, hundreds first (R184). -/
def bcdDigits (b : Byte) : Byte × Byte × Byte :=
  (BitVec.ofNat 8 (b.toNat / 100), BitVec.ofNat 8 (b.toNat / 10 % 10), BitVec.ofNat 8 (b.toNat % 10))

end Sys2Proof.Machine
end

