-- ==== Sys2Proof/Machine/Alu.lean ====
section
/-! DEFINITION. Register arithmetic and logic (spec 42_alu, R150 to R162). Every instruction here is of PC class NEXT. -/

namespace Sys2Proof.Machine

/-- LD Vx, kk (R151). -/
def execLdImm (x : RegIdx) (kk : Byte) (s : State) : Result := .next (s.writeV x kk).advance

/-- ADD Vx, kk: VF is no flag here (R152). -/
def execAddImm (x : RegIdx) (kk : Byte) (s : State) : Result := .next (s.writeV x (s.readV x + kk)).advance

/-- LD Vx, Vy (R153). -/
def execLdReg (x y : RegIdx) (s : State) : Result := .next (s.writeV x (s.readV y)).advance

/-- OR Vx, Vy (R154). -/
def execOrReg (x y : RegIdx) (s : State) : Result := .next (s.writeV x (s.readV x ||| s.readV y)).logicReset.advance

/-- AND Vx, Vy (R155). -/
def execAndReg (x y : RegIdx) (s : State) : Result := .next (s.writeV x (s.readV x &&& s.readV y)).logicReset.advance

/-- XOR Vx, Vy (R156). -/
def execXorReg (x y : RegIdx) (s : State) : Result := .next (s.writeV x (s.readV x ^^^ s.readV y)).logicReset.advance

/-- ADD Vx, Vy with the carry in VF (R157). -/
def execAddReg (x y : RegIdx) (s : State) : Result :=
  let a := s.readV x
  let b := s.readV y
  .next (s.writeResultFlag x (a + b) (carryFlag a b)).advance

/-- SUB Vx, Vy: VF = 1 when no borrow (R158). -/
def execSubReg (x y : RegIdx) (s : State) : Result :=
  let a := s.readV x
  let b := s.readV y
  .next (s.writeResultFlag x (a - b) (noBorrowFlag a b)).advance

/-- SHR Vx {, Vy} (R159). -/
def execShr (x y : RegIdx) (s : State) : Result :=
  let a := s.shiftOperand x y
  .next (s.writeResultFlag x (a >>> 1) (shiftedOutRight a)).advance

/-- SUBN Vx, Vy: VF = 1 when no borrow (R160). -/
def execSubn (x y : RegIdx) (s : State) : Result :=
  let a := s.readV x
  let b := s.readV y
  .next (s.writeResultFlag x (b - a) (noBorrowFlag b a)).advance

/-- SHL Vx {, Vy} (R161). -/
def execShl (x y : RegIdx) (s : State) : Result :=
  let a := s.shiftOperand x y
  .next (s.writeResultFlag x (a <<< 1) (shiftedOutLeft a)).advance

/-- RND Vx, kk when the draw answers `r` (R162). -/
def rndWith (r : Byte) (x : RegIdx) (kk : Byte) (s : State) : State := (s.writeV x (r &&& kk)).countDraw.advance

/-- RND Vx, kk with a fresh draw, the free value (R162, log entry 2). -/
def execRnd (x : RegIdx) (kk : Byte) (s : State) : Result := .next (rndWith (Config.randomByte s.draws) x kk s)

end Sys2Proof.Machine
end

