-- ==== Sys2Proof/Syntax.lean ====
section
/-! DEFINITION. The 34 instructions of spec/opcode_table.json and R84, one constructor a row, in the table's order. -/

namespace Sys2Proof

/-- One instruction. Operands are the fields of R81 and R83. `ign` holds the bits that the default decode ignores
(R82: the `-` bits of formats SYS0 and XY0); no meaning depends on it, but an error carries the RAW opcode (R250), so
it is kept. -/
inductive Instr where
  /-- `CLS`, 00E0 (R202). -/
  | cls (ign : Nibble)
  /-- `RET`, 00EE (R131). -/
  | ret (ign : Nibble)
  /-- `JP nnn`, 1nnn (R132). -/
  | jp (nnn : Addr)
  /-- `CALL nnn`, 2nnn (R133). -/
  | call (nnn : Addr)
  /-- `SE Vx, kk`, 3xkk (R134). -/
  | seImm (x : RegIdx) (kk : Byte)
  /-- `SNE Vx, kk`, 4xkk (R135). -/
  | sneImm (x : RegIdx) (kk : Byte)
  /-- `SE Vx, Vy`, 5xy0 (R136). -/
  | seReg (x y : RegIdx) (ign : Nibble)
  /-- `LD Vx, kk`, 6xkk (R151). -/
  | ldImm (x : RegIdx) (kk : Byte)
  /-- `ADD Vx, kk`, 7xkk (R152). -/
  | addImm (x : RegIdx) (kk : Byte)
  /-- `LD Vx, Vy`, 8xy0 (R153). -/
  | ldReg (x y : RegIdx)
  /-- `OR Vx, Vy`, 8xy1 (R154). -/
  | orReg (x y : RegIdx)
  /-- `AND Vx, Vy`, 8xy2 (R155). -/
  | andReg (x y : RegIdx)
  /-- `XOR Vx, Vy`, 8xy3 (R156). -/
  | xorReg (x y : RegIdx)
  /-- `ADD Vx, Vy`, 8xy4 (R157). -/
  | addReg (x y : RegIdx)
  /-- `SUB Vx, Vy`, 8xy5 (R158). -/
  | subReg (x y : RegIdx)
  /-- `SHR Vx {, Vy}`, 8xy6 (R159). -/
  | shr (x y : RegIdx)
  /-- `SUBN Vx, Vy`, 8xy7 (R160). -/
  | subn (x y : RegIdx)
  /-- `SHL Vx {, Vy}`, 8xyE (R161). -/
  | shl (x y : RegIdx)
  /-- `SNE Vx, Vy`, 9xy0 (R137). -/
  | sneReg (x y : RegIdx) (ign : Nibble)
  /-- `LD I, nnn`, Annn (R181). -/
  | ldI (nnn : Addr)
  /-- `JP V0, nnn`, Bnnn (R138). -/
  | jpV0 (nnn : Addr)
  /-- `RND Vx, kk`, Cxkk (R162). -/
  | rnd (x : RegIdx) (kk : Byte)
  /-- `DRW Vx, Vy, n`, Dxyn (R203). -/
  | drw (x y : RegIdx) (n : Fin 16)
  /-- `SKP Vx`, Ex9E (R221). -/
  | skp (x : RegIdx)
  /-- `SKNP Vx`, ExA1 (R222). -/
  | sknp (x : RegIdx)
  /-- `LD Vx, DT`, Fx07 (R225). -/
  | ldVxDT (x : RegIdx)
  /-- `LD Vx, K`, Fx0A (R223). -/
  | ldVxK (x : RegIdx)
  /-- `LD DT, Vx`, Fx15 (R226). -/
  | ldDTVx (x : RegIdx)
  /-- `LD ST, Vx`, Fx18 (R227). -/
  | ldSTVx (x : RegIdx)
  /-- `ADD I, Vx`, Fx1E (R182). -/
  | addI (x : RegIdx)
  /-- `LD F, Vx`, Fx29 (R183). -/
  | ldF (x : RegIdx)
  /-- `LD B, Vx`, Fx33 (R184). -/
  | ldB (x : RegIdx)
  /-- `LD [I], Vx`, Fx55 (R185). -/
  | storeRegs (x : RegIdx)
  /-- `LD Vx, [I]`, Fx65 (R186). -/
  | loadRegs (x : RegIdx)
  deriving DecidableEq, Repr

end Sys2Proof
end

