-- ==== Sys2Proof/WellFormed.lean ====
section
/-! DEFINITION. Which instructions a decode setting admits. Operand ranges are in the types (R21, R83); the one check
left is R82's: with `STRICT_DECODE` = true the ignored bits of formats SYS0 and XY0 must be 0. -/

namespace Sys2Proof

/-- The bits of `i` that the default decode ignores (R82), 0 where it has none. -/
def Instr.ignored : Instr → Nibble
  | .cls ign => ign
  | .ret ign => ign
  | .seReg _ _ ign => ign
  | .sneReg _ _ ign => ign
  | .jp _ | .call _ | .seImm _ _ | .sneImm _ _ | .ldImm _ _ | .addImm _ _ | .ldReg _ _ | .orReg _ _ | .andReg _ _
  | .xorReg _ _ | .addReg _ _ | .subReg _ _ | .shr _ _ | .subn _ _ | .shl _ _ | .ldI _ | .jpV0 _ | .rnd _ _
  | .drw _ _ _ | .skp _ | .sknp _ | .ldVxDT _ | .ldVxK _ | .ldDTVx _ | .ldSTVx _ | .addI _ | .ldF _ | .ldB _
  | .storeRegs _ | .loadRegs _ => 0

/-- `i` is an instruction under the setting `strict` of `STRICT_DECODE` (R82, R84, R85). -/
def Instr.wellFormed (strict : Bool) (i : Instr) : Bool :=
  !strict || i.ignored == 0

end Sys2Proof
end

