-- ==== Sys2Proof/Decode.lean ====
section
/-! DEFINITION. The decoder of R84, total on all words and on all byte strings, and the encoder from the same table. -/

namespace Sys2Proof

/-! ### Fields (R81, R14) -/

/-- `op[15:12]`, the family. -/
def famField (op : Word) : Nibble := op.extractLsb' 12 4

/-- `op[11:8]` as bits. -/
def xBits (op : Word) : Nibble := op.extractLsb' 8 4

/-- `op[7:4]` as bits. -/
def yBits (op : Word) : Nibble := op.extractLsb' 4 4

/-- `op[3:0]` as bits. -/
def nBits (op : Word) : Nibble := op.extractLsb' 0 4

/-- `x`, a register index. -/
def xField (op : Word) : RegIdx := (xBits op).toFin

/-- `y`, a register index. -/
def yField (op : Word) : RegIdx := (yBits op).toFin

/-- `n`, the sprite height. -/
def nField (op : Word) : Fin 16 := (nBits op).toFin

/-- `kk`, the immediate byte. -/
def kkField (op : Word) : Byte := op.extractLsb' 0 8

/-- `nnn`, the 12-bit address. -/
def nnnField (op : Word) : Addr := op.extractLsb' 0 12

/-! ### The decoder -/

/-- Why bytes are not an instruction. -/
inductive DecodeReject where
  /-- Fewer than the two bytes every instruction has (R80). -/
  | truncated
  /-- The word matches no row of R84 (R85): the step raises InvalidOpcode with it. -/
  | invalid (op : Word)
  deriving DecidableEq, Repr

/-- Family 0x0: on the low byte; with `STRICT_DECODE` the bits 11:8 must be 0 (R84). -/
def decodeFam0 (strict : Bool) (op : Word) : Except DecodeReject Instr :=
  if strict && xBits op != 0 then .error (.invalid op)
  else match kkField op with
    | 0xE0#8 => .ok (.cls (xBits op))
    | 0xEE#8 => .ok (.ret (xBits op))
    | _ => .error (.invalid op)

/-- Family 0x8: on the low nibble (R84). -/
def decodeFam8 (op : Word) : Except DecodeReject Instr :=
  match nBits op with
  | 0x0#4 => .ok (.ldReg (xField op) (yField op))
  | 0x1#4 => .ok (.orReg (xField op) (yField op))
  | 0x2#4 => .ok (.andReg (xField op) (yField op))
  | 0x3#4 => .ok (.xorReg (xField op) (yField op))
  | 0x4#4 => .ok (.addReg (xField op) (yField op))
  | 0x5#4 => .ok (.subReg (xField op) (yField op))
  | 0x6#4 => .ok (.shr (xField op) (yField op))
  | 0x7#4 => .ok (.subn (xField op) (yField op))
  | 0xE#4 => .ok (.shl (xField op) (yField op))
  | _ => .error (.invalid op)

/-- Family 0xE: on the low byte (R84). -/
def decodeFamE (op : Word) : Except DecodeReject Instr :=
  match kkField op with
  | 0x9E#8 => .ok (.skp (xField op))
  | 0xA1#8 => .ok (.sknp (xField op))
  | _ => .error (.invalid op)

/-- Family 0xF: on the low byte (R84). -/
def decodeFamF (op : Word) : Except DecodeReject Instr :=
  match kkField op with
  | 0x07#8 => .ok (.ldVxDT (xField op))
  | 0x0A#8 => .ok (.ldVxK (xField op))
  | 0x15#8 => .ok (.ldDTVx (xField op))
  | 0x18#8 => .ok (.ldSTVx (xField op))
  | 0x1E#8 => .ok (.addI (xField op))
  | 0x29#8 => .ok (.ldF (xField op))
  | 0x33#8 => .ok (.ldB (xField op))
  | 0x55#8 => .ok (.storeRegs (xField op))
  | 0x65#8 => .ok (.loadRegs (xField op))
  | _ => .error (.invalid op)

/-- `Decode(op)` of R84 under the setting `strict` of `STRICT_DECODE`. -/
def decode (strict : Bool) (op : Word) : Except DecodeReject Instr :=
  match famField op with
  | 0x0#4 => decodeFam0 strict op
  | 0x1#4 => .ok (.jp (nnnField op))
  | 0x2#4 => .ok (.call (nnnField op))
  | 0x3#4 => .ok (.seImm (xField op) (kkField op))
  | 0x4#4 => .ok (.sneImm (xField op) (kkField op))
  | 0x5#4 => if strict && nBits op != 0 then .error (.invalid op) else .ok (.seReg (xField op) (yField op) (nBits op))
  | 0x6#4 => .ok (.ldImm (xField op) (kkField op))
  | 0x7#4 => .ok (.addImm (xField op) (kkField op))
  | 0x8#4 => decodeFam8 op
  | 0x9#4 => if strict && nBits op != 0 then .error (.invalid op) else .ok (.sneReg (xField op) (yField op) (nBits op))
  | 0xA#4 => .ok (.ldI (nnnField op))
  | 0xB#4 => .ok (.jpV0 (nnnField op))
  | 0xC#4 => .ok (.rnd (xField op) (kkField op))
  | 0xD#4 => .ok (.drw (xField op) (yField op) (nField op))
  | 0xE#4 => decodeFamE op
  | 0xF#4 => decodeFamF op
  | _ => .error (.invalid op)

/-- The two bytes of an opcode word combined big-endian, `hi * 256 + lo`: the byte at the lower address is `op[15:8]`
(R62). -/
def wordOfBytes (hi lo : Byte) : Word := BitVec.ofNat 16 (hi.toNat * 256 + lo.toNat)

/-- `op[15:8]`, the byte at the lower address (R62). -/
def highByte (op : Word) : Byte := op.extractLsb' 8 8

/-- `op[7:0]`, the byte at the higher address (R62). -/
def lowByte (op : Word) : Byte := op.extractLsb' 0 8

/-- The instruction at the head of a byte string, with the bytes after it (R80: always two bytes). -/
def decodeBytes (strict : Bool) : List Byte → Except DecodeReject (Instr × List Byte)
  | hi :: lo :: rest =>
    match decode strict (wordOfBytes hi lo) with
    | .ok i => .ok (i, rest)
    | .error e => .error e
  | [_] => .error .truncated
  | [] => .error .truncated

/-- The instruction the decoder reads, under the default parameters, from a word numbered as spec/opcode_table.json
numbers it: its two bytes are laid out high byte first (R62) and given to the decoder. -/
def decodeTableWord (nbits w : Nat) : Option Instr :=
  let op := BitVec.ofNat 16 (w % 2 ^ nbits)
  match decodeBytes Machine.defaultConfig.strictDecode [highByte op, lowByte op] with
  | .ok (i, _) => some i
  | .error _ => none

/-! ### The encoder -/

/-- A register number as the four bits of its field. -/
def regBits (r : RegIdx) : Nibble := BitVec.ofFin r

/-- A word of format ADDR: the family in bits 15:12, nnn in bits 11:0 (R82). -/
def encAddr (f : Nibble) (nnn : Addr) : Word := BitVec.ofNat 16 (f.toNat * 4096 + nnn.toNat)

/-- A word of format XKK, and of formats SYS0 and XS, whose low byte is fixed: the family in bits 15:12, x in bits 11:8,
the byte in bits 7:0 (R82). -/
def encXKK (f x : Nibble) (kk : Byte) : Word := BitVec.ofNat 16 (f.toNat * 4096 + x.toNat * 256 + kk.toNat)

/-- A word of formats XYN, XYS and XY0: four nibbles, the family in bits 15:12 (R82). -/
def encXYN (f x y n : Nibble) : Word :=
  BitVec.ofNat 16 (f.toNat * 4096 + x.toNat * 256 + y.toNat * 16 + n.toNat)

/-- The opcode word of an instruction, from the patterns of R84. -/
def encode : Instr → Word
  | .cls ign => encXKK 0x0 ign 0xE0
  | .ret ign => encXKK 0x0 ign 0xEE
  | .jp nnn => encAddr 0x1 nnn
  | .call nnn => encAddr 0x2 nnn
  | .seImm x kk => encXKK 0x3 (regBits x) kk
  | .sneImm x kk => encXKK 0x4 (regBits x) kk
  | .seReg x y ign => encXYN 0x5 (regBits x) (regBits y) ign
  | .ldImm x kk => encXKK 0x6 (regBits x) kk
  | .addImm x kk => encXKK 0x7 (regBits x) kk
  | .ldReg x y => encXYN 0x8 (regBits x) (regBits y) 0x0
  | .orReg x y => encXYN 0x8 (regBits x) (regBits y) 0x1
  | .andReg x y => encXYN 0x8 (regBits x) (regBits y) 0x2
  | .xorReg x y => encXYN 0x8 (regBits x) (regBits y) 0x3
  | .addReg x y => encXYN 0x8 (regBits x) (regBits y) 0x4
  | .subReg x y => encXYN 0x8 (regBits x) (regBits y) 0x5
  | .shr x y => encXYN 0x8 (regBits x) (regBits y) 0x6
  | .subn x y => encXYN 0x8 (regBits x) (regBits y) 0x7
  | .shl x y => encXYN 0x8 (regBits x) (regBits y) 0xE
  | .sneReg x y ign => encXYN 0x9 (regBits x) (regBits y) ign
  | .ldI nnn => encAddr 0xA nnn
  | .jpV0 nnn => encAddr 0xB nnn
  | .rnd x kk => encXKK 0xC (regBits x) kk
  | .drw x y n => encXYN 0xD (regBits x) (regBits y) (regBits n)
  | .skp x => encXKK 0xE (regBits x) 0x9E
  | .sknp x => encXKK 0xE (regBits x) 0xA1
  | .ldVxDT x => encXKK 0xF (regBits x) 0x07
  | .ldVxK x => encXKK 0xF (regBits x) 0x0A
  | .ldDTVx x => encXKK 0xF (regBits x) 0x15
  | .ldSTVx x => encXKK 0xF (regBits x) 0x18
  | .addI x => encXKK 0xF (regBits x) 0x1E
  | .ldF x => encXKK 0xF (regBits x) 0x29
  | .ldB x => encXKK 0xF (regBits x) 0x33
  | .storeRegs x => encXKK 0xF (regBits x) 0x55
  | .loadRegs x => encXKK 0xF (regBits x) 0x65

end Sys2Proof
end

