-- ==== Sys2Proof/Machine/Control.lean ====
section
/-! DEFINITION. Control transfer (spec 41_control, R130 to R138). -/

namespace Sys2Proof.Machine

/-- RET: `PC <- Pop()`, or StackUnderflow with the raw opcode (R131, R255). -/
def execRet (ign : Nibble) (s : State) : Result :=
  match s.pop with
  | none => raise (.stackUnderflow (encode (.ret ign)))
  | some (t, s') => .next (s'.setPC t)

/-- JP nnn: `PC <- zext_16(nnn)` (R132). -/
def execJp (nnn : Addr) (s : State) : Result := .next (s.setPC (zextAddr nnn))

/-- CALL nnn: the pushed address is PC + 2 (R113, R133), or StackOverflow with the raw opcode (R254). -/
def execCall (nnn : Addr) (s : State) : Result :=
  match s.push (s.pc + 2) with
  | none => raise (.stackOverflow (encode (.call nnn)))
  | some s' => .next (s'.setPC (zextAddr nnn))

/-- SE Vx, kk (R134). -/
def execSeImm (x : RegIdx) (kk : Byte) (s : State) : Result := .next (s.skipIf (s.readV x == kk))

/-- SNE Vx, kk (R135). -/
def execSneImm (x : RegIdx) (kk : Byte) (s : State) : Result := .next (s.skipIf (s.readV x != kk))

/-- SE Vx, Vy (R136). -/
def execSeReg (x y : RegIdx) (s : State) : Result := .next (s.skipIf (s.readV x == s.readV y))

/-- SNE Vx, Vy (R137). -/
def execSneReg (x y : RegIdx) (s : State) : Result := .next (s.skipIf (s.readV x != s.readV y))

/-- JP V0, nnn: the sum is not masked to 12 bits (R138). -/
def execJpV0 (nnn : Addr) (s : State) : Result :=
  .next (s.setPC (zextAddr nnn + zextByte (s.readV (s.jumpRegister nnn))))

end Sys2Proof.Machine
end

