-- ==== Sys2Proof/Machine/Draw.lean ====
section
/-! DEFINITION. The display buffer's `clear()` and `draw()` (R270) and the two display instructions (spec 44_display,
R200 to R205). -/

namespace Sys2Proof.Machine

/-- `clear()`: all pixels off (R202, R270). -/
def Display.clear : Display := Vector.replicate displayH 0

/-- XOR one pixel with 1 and note a collision when it was on (R203). -/
def Display.toggle (row : Fin displayH) (col : Fin displayW) (acc : Display × Bool) : Display × Bool :=
  (acc.1.flipPixel row col, acc.2 || acc.1.pixel row col)

/-- The columns j of `js` of one sprite row: bit 7 − j falls on column x0 + j, and columns past 63 are dropped
(R201, R203). -/
def Display.drawBits (row : Fin displayH) (x0 : Nat) (b : Byte) : List Nat → Display × Bool → Display × Bool
  | [], acc => acc
  | j :: js, acc =>
    Display.drawBits row x0 b js <|
      if h : x0 + j < displayW then
        if b.getLsbD (7 - j) then Display.toggle row ⟨x0 + j, h⟩ acc else acc
      else acc

/-- The sprite rows r, r + 1, … at display rows y0 + r, …: past row 31 they wrap or are dropped (R203). -/
def Display.drawRows (edge : RowEdge) (x0 y0 : Nat) : Nat → List Byte → Display × Bool → Display × Bool
  | _, [], acc => acc
  | r, b :: bs, acc =>
    Display.drawRows edge x0 y0 (r + 1) bs <|
      if displayH ≤ y0 + r ∧ edge = .clip then acc
      else Display.drawBits ⟨(y0 + r) % displayH, Nat.mod_lt _ (by decide)⟩ x0 b (List.range 8) acc

/-- `draw(x, y, sprite_bytes) -> collided` (R270), the loop of R203. -/
def Display.draw (edge : RowEdge) (x0 y0 : Nat) (bytes : List Byte) (d : Display) : Display × Bool :=
  Display.drawRows edge x0 y0 0 bytes (d, false)

/-- CLS; no register but PC changes (R202). -/
def execCls (s : State) : Result := .next (s.setDisp Display.clear).advance

/-- DRW Vx, Vy, n: coordinates and sprite bytes are read before any write, VF is written last (R203, D32). -/
def execDrw (x y : RegIdx) (n : Fin 16) (s : State) : Result :=
  let r := s.disp.draw s.config.drwRowEdge ((s.readV x).toNat % displayW) ((s.readV y).toNat % displayH)
    (s.spriteBytes n.val)
  .next ((s.setDisp r.1).writeV VF (flagByte r.2)).advance

end Sys2Proof.Machine
end

