-- ==== Sys2Proof/Machine/Index.lean ====
section
/-! DEFINITION. The index register and memory transfers (spec 43_index_memory, R180 to R186), all of PC class NEXT. -/

namespace Sys2Proof.Machine

/-- LD I, nnn (R181). -/
def execLdI (nnn : Addr) (s : State) : Result := .next (s.setI (zextAddr nnn)).advance

/-- ADD I, Vx: mod 65536, VF untouched (R182). -/
def execAddI (x : RegIdx) (s : State) : Result := .next (s.setI (s.i + zextByte (s.readV x))).advance

/-- LD F, Vx (R183). -/
def execLdF (x : RegIdx) (s : State) : Result := .next (s.setI (s.glyphAddr (lowNibble (s.readV x)))).advance

/-- LD B, Vx: three digits at DataAddr(0), DataAddr(1), DataAddr(2) (R184). -/
def execLdB (x : RegIdx) (s : State) : Result :=
  let d := bcdDigits (s.readV x)
  .next (((s.writeData 0 d.1).writeData 1 d.2.1).writeData 2 d.2.2).advance

/-- LD [I], Vx (R185). -/
def execStoreRegs (x : RegIdx) (s : State) : Result := .next ((s.storeBlock (regsUpTo x)).blockIncrement x).advance

/-- LD Vx, [I] (R186). -/
def execLoadRegs (x : RegIdx) (s : State) : Result := .next ((s.loadBlock (regsUpTo x)).blockIncrement x).advance

end Sys2Proof.Machine
end

