-- ==== Sys2Proof/Machine/InputTimers.lean ====
section
/-! DEFINITION. Input and timer instructions and the key-wait poll (spec 45_input_timers, R220 to R227). -/

namespace Sys2Proof.Machine

/-- SKP Vx: skip if key `V[x] mod 16` is pressed (R221). -/
def execSkp (x : RegIdx) (s : State) : Result := .next (s.skipIf (s.key (lowNibble (s.readV x))))

/-- SKNP Vx: skip if key `V[x] mod 16` is not pressed (R222). -/
def execSknp (x : RegIdx) (s : State) : Result := .next (s.skipIf (!s.key (lowNibble (s.readV x))))

/-- LD Vx, K: the step that begins the wait; PC does not advance (R223). -/
def execLdVxK (x : RegIdx) (s : State) : Result := .next (s.setWait (some ⟨x, s.keys⟩))

/-- The lowest key that is pressed now and was not at the last observation (R224 `min P`). -/
def lowestNewPress (seen now : Keys) : Option KeyIdx :=
  (List.finRange 16).find? fun k => now[k.val] && !seen[k.val]

/-- `KeyWaitPoll(x, prev)` (R224): it completes the wait or remembers this observation, and raises nothing (R112). -/
def State.keyWaitPoll (s : State) (w : KeyWait) : State :=
  match lowestNewPress w.seen s.keys with
  | some k => ((s.writeV w.dest (BitVec.ofNat 8 k.val)).setWait none).advance
  | none => s.setWait (some ⟨w.dest, s.keys⟩)

/-- LD Vx, DT (R225). -/
def execLdVxDT (x : RegIdx) (s : State) : Result := .next (s.writeV x s.dt).advance

/-- LD DT, Vx (R226). -/
def execLdDTVx (x : RegIdx) (s : State) : Result := .next (s.setDT (s.readV x)).advance

/-- LD ST, Vx (R227). -/
def execLdSTVx (x : RegIdx) (s : State) : Result := .next (s.setST (s.readV x)).advance

end Sys2Proof.Machine
end

