-- ==== Sys2Proof/Machine/Fetch.lean ====
section
/-! DEFINITION. Fetch and decode (R62, R66, R84, R111), and placing a word where the next step fetches it. -/

namespace Sys2Proof.Machine

/-- `Fetch16(PC)`: two bytes, big-endian (R62); the address is not masked, and MemoryFault when PC + 1 ≥ 4096 (R66). -/
def State.fetchWord (s : State) : Except Fault Word :=
  if memSize ≤ s.pc.toNat + 1 then .error (.memoryFault s.pc)
  else .ok (wordOfBytes (s.readByte (BitVec.ofNat 12 s.pc.toNat)) (s.readByte (BitVec.ofNat 12 (s.pc.toNat + 1))))

/-- The instruction at PC, or the first failing check of R257: the fetch bound, then the decode. -/
def State.fetchInstr (s : State) : Except Fault Instr :=
  match s.fetchWord with
  | .error e => .error e
  | .ok op =>
    match decode s.config.strictDecode op with
    | .ok i => .ok i
    | .error _ => .error (.invalidOpcode op)

/-- `s` made ready to fetch: no key wait is pending, and a PC that no fetch can start at (R66) becomes 0x200. From
`State.reset` this changes nothing. -/
def State.readyToFetch (s : State) : State :=
  { s with
    wait := none
    pc := if memSize ≤ s.pc.toNat + 1 then BitVec.ofNat 16 programStart else s.pc }

/-- The opcode word `op` stored at PC, high byte first (R62). -/
def State.placeWord (s : State) (op : Word) : State := s.writeBytes s.pc.toNat [highByte op, lowByte op]

end Sys2Proof.Machine
end

