-- ==== Sys2Proof/Machine/Step.lean ====
section
/-! DEFINITION. `step()` of R111, and the placement of one instruction for the next step. -/

namespace Sys2Proof.Machine

/-- One fetch-decode-execute cycle (R110, R111): a pending key wait is polled first, and nothing is fetched then
(R112). -/
def step (s : State) : Host.Outcome State Fault Refusal :=
  match s.wait with
  | some w => .next (s.keyWaitPoll w)
  | none =>
    match s.fetchInstr with
    | .error e => raise e
    | .ok i => exec i s

/-- `s` with the opcode word `w` where the very next step fetches it (log entry 4): no key wait is pending, and the
word's two bytes stand at PC. -/
def State.withFetchWord (s : State) (nbits w : Nat) : State :=
  s.readyToFetch.placeWord (BitVec.ofNat 16 (w % 2 ^ nbits))

end Sys2Proof.Machine
end

