-- ==== Sys2Proof/Machine/HostActions.lean ====
section
/-! DEFINITION. What the outside world does to the machine between steps (R73, R273): ticks, keys, the ROM loader, reset,
the answer to an error, and runs of such actions. None of them is an instruction and `step` never calls one (R117). -/

namespace Sys2Proof.Machine

/-! ### The timer pair (R264 to R269) -/

/-- One decrement, floored at 0 (R265). -/
def countDown (b : Byte) : Byte := if b = 0 then 0 else b - 1

/-- `tick()` (R265). -/
def State.tick (s : State) : State := (s.setDT (countDown s.dt)).setST (countDown s.st)

/-- `n` ticks with nothing between them (R269). -/
def State.ticks : Nat → State → State
  | 0, s => s
  | n + 1, s => State.ticks n s.tick

/-- `sound_active()` (R268). -/
def State.soundActive (s : State) : Bool := decide (0 < s.st.toNat)

/-! ### Display and input (R270 to R272) -/

/-- `snapshot()`: the whole grid as it stands between steps (R271). -/
def State.snapshot (s : State) : Display := s.disp

/-- `set_key(k, p)`: `KEYS[k] <- p` (R272). -/
def State.setKey (s : State) (k : KeyIdx) (p : Bool) : State := { s with keys := s.keys.set k.val p }

/-! ### Loading and reset (R290 to R297) -/

/-- The loader's own error, never raised by `step` (R278). -/
inductive LoaderError where
  /-- `RomTooLarge`: the image has more than 3584 bytes. -/
  | romTooLarge
  deriving DecidableEq, Repr

/-- The external loader: the ROM's bytes verbatim from 0x200 on, nothing else changed (R296). -/
def State.loadRom (s : State) (rom : List Byte) : Except LoaderError State :=
  if romCapacity < rom.length then .error .romTooLarge else .ok (s.writeBytes programStart rom)

/-- Reset as a host action: every component of R38 anew, at once (R290). The parameters stay (R37) and the count of
random draws goes on, so that a reset does not repeat earlier draws (log entry 2). -/
def State.hostReset (s : State) : State := { State.resetWith s.config with draws := s.draws }

/-! ### The host's answer to an error (R260) -/

/-- `skip_invalid`: `PC <- (PC + 2) mod 65536` and nothing else (R260). -/
def State.skipInvalid (s : State) : State := s.advance

/-- The policy treats the error as a halt: every error but an InvalidOpcode under `skip` (R260, R277). -/
def haltsRun (c : Config) (e : Fault) : Bool :=
  match e with
  | .invalidOpcode _ => c.invalidOpcodePolicy == .halt
  | .memoryFault _ => true
  | .stackOverflow _ => true
  | .stackUnderflow _ => true

/-! ### Runs (R266, R273, R277) -/

/-- The machine and what the host knows of it. The last two fields are the host's, not the machine's (R256). -/
structure Session where
  machine : State
  /-- The error that the last step returned, until a skip or a reset answers it (R260, R261, log entry 14). -/
  error : Option Fault := none
  /-- The host has stopped calling the machine (R118, R273). -/
  aborted : Bool := false
  deriving DecidableEq, Repr

/-- The run has ended (R277): an abort, or an error that the policy treats as a halt. -/
def Session.ended (h : Session) : Bool :=
  h.aborted || match h.error with
    | none => false
    | some e => haltsRun h.machine.config e

/-- `skip_invalid` may be performed: "only after InvalidOpcode under policy `skip`" (R273). -/
def Session.maySkip (h : Session) : Bool :=
  match h.error with
  | some (.invalidOpcode _) => h.machine.config.invalidOpcodePolicy == .skip
  | some (.memoryFault _) => false
  | some (.stackOverflow _) => false
  | some (.stackUnderflow _) => false
  | none => false

/-- The host calls `step()`: an error is returned to it and leaves the machine as it was (R110, R251). While an error is
unanswered no step completes: it is the same error again, "because nothing changed" (R260), and execution resumes by a
skip or a reset alone (R261). -/
def Session.callStep (h : Session) : Option Session :=
  match step h.machine with
  | .next t => if h.error = none then some { h with machine := t } else none
  | .fault e => some { h with error := some e }
  | .refused _ => none

/-- The host's load of a ROM; the loader's refusal leaves the machine as it was (R296, log entry 13). -/
def Session.load (h : Session) (rom : List Byte) : Session :=
  match h.machine.loadRom rom with
  | .ok t => { h with machine := t }
  | .error _ => h

/-- The host actions of R273's table, one constructor a row. -/
inductive HostAction where
  | step
  | tick
  | setKey (k : KeyIdx) (pressed : Bool)
  | snapshot
  | soundActive
  | loadRom (rom : List Byte)
  | reset
  | skipInvalid
  | abort
  deriving DecidableEq, Repr

/-- One host action, atomic; `none` where it may not be performed: anything after an abort, anything but a reset after
an error that ended the run (R261), and `skip_invalid` but as R273 says. What `snapshot()` and `sound_active()` answer is
`State.snapshot` and `State.soundActive`; they write nothing. -/
def HostAction.apply (a : HostAction) (h : Session) : Option Session :=
  if h.aborted = true ∨ (h.ended = true ∧ a ≠ .reset) then none
  else match a with
    | .step => h.callStep
    | .tick => some { h with machine := h.machine.tick }
    | .setKey k p => some { h with machine := h.machine.setKey k p }
    | .snapshot => some h
    | .soundActive => some h
    | .loadRom rom => some (h.load rom)
    | .reset => some { machine := h.machine.hostReset }
    | .skipInvalid => if h.maySkip then some { h with machine := h.machine.skipInvalid, error := none } else none
    | .abort => some { h with aborted := true }

/-- The host's actions in order, in any interleaving; `none` where one may not be performed, and nothing follows the end of
the run (R277). -/
def runHost : List HostAction → Session → Option Session
  | [], h => some h
  | a :: rest, h =>
    if h.ended then none
    else match a.apply h with
      | none => none
      | some k => runHost rest k

/-- The start of a run: a reset state, for the parameters of `s`, with the ROM loaded (R277, R297). -/
def Session.boot (s : State) (rom : List Byte) : Except LoaderError Session :=
  match s.hostReset.loadRom rom with
  | .ok t => .ok { machine := t }
  | .error e => .error e

/-- A run: the session that the actions end in from the start of a run (R277). -/
def runFrom (s : State) (rom : List Byte) (actions : List HostAction) : Option Session :=
  match Session.boot s rom with
  | .ok h => runHost actions h
  | .error _ => none

end Sys2Proof.Machine
end

