-- ==== Sys2Proof/Safety.lean ====
section
/-! DEFINITION. The terms that claims are stated in: the invariant of the machine, what an instruction may write (the "W"
columns of R23), the PC classes of R114, and which pixels a sprite covers (R203). -/

namespace Sys2Proof.Machine

/-- What every state of a run satisfies: memory in canonical form; at most 16 return addresses (R26, R40), each at most
0x1000; PC at most 0x10FE (R115); and while a key wait is pending, PC at a fetched instruction (R33, R66). -/
structure State.Inv (s : State) : Prop where
  mem_canonical : Memory.wf (resetByte s.config) s.mem
  stack_depth : s.stack.length ≤ stackDepth
  stack_entries : ∀ a ∈ s.stack, a.toNat ≤ 0x1000
  pc_range : s.pc.toNat ≤ 0x10FE
  wait_pc : s.wait ≠ none → s.pc.toNat + 1 < memSize

/-- The invariant of a session: the machine's, and after an InvalidOpcode PC stands at the fetched word with no wait
pending until the host answers (R251, R257). -/
structure Session.Inv (h : Session) : Prop where
  machine : h.machine.Inv
  invalid_pc : ∀ op, h.error = some (.invalidOpcode op) → h.machine.wait = none ∧ h.machine.pc.toNat + 1 < memSize

/-- What may change besides PC: registers and memory bytes one by one, the rest by component. -/
structure Writes where
  regs : RegIdx → Bool := fun _ => false
  mem : Addr → Bool := fun _ => false
  i : Bool := false
  stack : Bool := false
  dt : Bool := false
  st : Bool := false
  disp : Bool := false
  keys : Bool := false
  wait : Bool := false
  draws : Bool := false

/-- From `s` to `t` nothing changes but PC and what `w` names. The parameters never change. -/
structure ChangesOnly (w : Writes) (s t : State) : Prop where
  regs : ∀ r, w.regs r = false → t.readV r = s.readV r
  mem : ∀ a, w.mem a = false → t.readByte a = s.readByte a
  i : w.i = false → t.i = s.i
  stack : w.stack = false → t.stack = s.stack
  dt : w.dt = false → t.dt = s.dt
  st : w.st = false → t.st = s.st
  disp : w.disp = false → t.disp = s.disp
  keys : w.keys = false → t.keys = s.keys
  wait : w.wait = false → t.wait = s.wait
  draws : w.draws = false → t.draws = s.draws
  config : t.config = s.config

/-- The register `x` alone. -/
def only (x : RegIdx) : RegIdx → Bool := fun r => r == x

/-- The register `x` and VF. -/
def onlyAndVF (x : RegIdx) : RegIdx → Bool := fun r => r == x || r == VF

/-- The bytes that LD [I], Vx stores to: DataAddr(0) .. DataAddr(x) (R185). -/
def State.blockAddrs (s : State) (x : RegIdx) : Addr → Bool := fun a => (regsUpTo x).any fun k => a == s.dataAddr k.val

/-- The three bytes that LD B, Vx stores to (R184). -/
def State.bcdAddrs (s : State) : Addr → Bool :=
  fun a => a == s.dataAddr 0 || a == s.dataAddr 1 || a == s.dataAddr 2

/-- The registers that a logic instruction writes: VF too when `LOGIC_RESETS_VF` (R154 to R156). -/
def State.logicRegs (s : State) (x : RegIdx) : RegIdx → Bool :=
  if s.config.logicResetsVF then onlyAndVF x else only x

/-- The "W" columns of R23's table, and WAIT for LD Vx, K (R33, R223), and the model's own count of draws for RND. -/
def writesOf (i : Instr) (s : State) : Writes :=
  match i with
  | .cls _ => { disp := true }
  | .ret _ => { stack := true }
  | .jp _ => {}
  | .call _ => { stack := true }
  | .seImm _ _ => {}
  | .sneImm _ _ => {}
  | .seReg _ _ _ => {}
  | .ldImm x _ => { regs := only x }
  | .addImm x _ => { regs := only x }
  | .ldReg x _ => { regs := only x }
  | .orReg x _ => { regs := s.logicRegs x }
  | .andReg x _ => { regs := s.logicRegs x }
  | .xorReg x _ => { regs := s.logicRegs x }
  | .addReg x _ => { regs := onlyAndVF x }
  | .subReg x _ => { regs := onlyAndVF x }
  | .shr x _ => { regs := onlyAndVF x }
  | .subn x _ => { regs := onlyAndVF x }
  | .shl x _ => { regs := onlyAndVF x }
  | .sneReg _ _ _ => {}
  | .ldI _ => { i := true }
  | .jpV0 _ => {}
  | .rnd x _ => { regs := only x, draws := true }
  | .drw _ _ _ => { regs := only VF, disp := true }
  | .skp _ => {}
  | .sknp _ => {}
  | .ldVxDT x => { regs := only x }
  | .ldVxK _ => { wait := true }
  | .ldDTVx _ => { dt := true }
  | .ldSTVx _ => { st := true }
  | .addI _ => { i := true }
  | .ldF _ => { i := true }
  | .ldB _ => { mem := s.bcdAddrs }
  | .storeRegs x => { mem := s.blockAddrs x, i := s.config.loadStoreIncrementsI }
  | .loadRegs x => { regs := fun r => decide (r ≤ x), i := s.config.loadStoreIncrementsI }

/-- The classes of R114. -/
inductive PcClass where
  | next
  | skip
  | jump
  | wait
  deriving DecidableEq, Repr

/-- The class that R114's table gives each instruction. -/
def pcClassOf : Instr → PcClass
  | .seImm _ _ | .sneImm _ _ | .seReg _ _ _ | .sneReg _ _ _ | .skp _ | .sknp _ => .skip
  | .jp _ | .jpV0 _ | .call _ | .ret _ => .jump
  | .ldVxK _ => .wait
  | .cls _ | .ldImm _ _ | .addImm _ _ | .ldReg _ _ | .orReg _ _ | .andReg _ _ | .xorReg _ _ | .addReg _ _
  | .subReg _ _ | .shr _ _ | .subn _ _ | .shl _ _ | .ldI _ | .rnd _ _ | .drw _ _ _ | .ldVxDT _ | .ldDTVx _
  | .ldSTVx _ | .addI _ | .ldF _ | .ldB _ | .storeRegs _ | .loadRegs _ => .next

/-- The condition under which an instruction of class SKIP skips (R134 to R137, R221, R222). -/
def skipCondition (i : Instr) (s : State) : Bool :=
  match i with
  | .seImm x kk => s.readV x == kk
  | .sneImm x kk => s.readV x != kk
  | .seReg x y _ => s.readV x == s.readV y
  | .sneReg x y _ => s.readV x != s.readV y
  | .skp x => s.keys[(s.readV x).toNat % 16]'(Nat.mod_lt _ (by decide))
  | .sknp x => !s.keys[(s.readV x).toNat % 16]'(Nat.mod_lt _ (by decide))
  | .cls _ | .ret _ | .jp _ | .call _ | .ldImm _ _ | .addImm _ _ | .ldReg _ _ | .orReg _ _ | .andReg _ _ | .xorReg _ _
  | .addReg _ _ | .subReg _ _ | .shr _ _ | .subn _ _ | .shl _ _ | .ldI _ | .jpV0 _ | .rnd _ _ | .drw _ _ _ | .ldVxDT _
  | .ldVxK _ | .ldDTVx _ | .ldSTVx _ | .addI _ | .ldF _ | .ldB _ | .storeRegs _ | .loadRegs _ => false

/-- The instruction that a step of `s` executes: none while a wait is pending (R112) and none when the fetch or the decode
fails. -/
def State.executes (s : State) : List Instr :=
  match s.wait with
  | some _ => []
  | none =>
    match s.fetchInstr with
    | .ok i => [i]
    | .error _ => []

/-- The instructions that the steps of a run execute, in order. -/
def instrsOfRun : List HostAction → Session → List Instr
  | [], _ => []
  | a :: rest, h =>
    match a.apply h with
    | none => []
    | some k => (if a = .step then h.machine.executes else []) ++ instrsOfRun rest k

/-- A key pressed now and not at the last observation (R224, the set P). -/
def newPress (seen now : Keys) (k : KeyIdx) : Prop := now[k.val] = true ∧ seen[k.val] = false

/-- DRW x, y, n would toggle pixel (row, col): some row r and bit j of the sprite fall on it, visible (R203). -/
def State.spriteCovers (s : State) (x y : RegIdx) (n : Fin 16) (row : Fin displayH) (col : Fin displayW) : Prop :=
  ∃ r j : Nat, r < n.val ∧ j < 8 ∧
    ((s.readV y).toNat % 32 + r < 32 ∨ s.config.drwRowEdge = .wrap) ∧
    ((s.readV y).toNat % 32 + r) % 32 = row.val ∧
    (s.readV x).toNat % 64 + j = col.val ∧
    (s.readByte (s.dataAddr r)).getLsbD (7 - j) = true

end Sys2Proof.Machine
end

