-- ==== Sys2Proof/Certificates/Slice0/Obligations.lean ====
section
/-! DEFINITION. The statements for the provers. Each docstring names the rule of spec/ it formalises; OBLIGATIONS.json
lists them with their titles. `ChangesOnly w s t` (Safety.lean) is the frame: from s to t nothing changes but PC and what
w names, registers one by one and memory byte by byte. -/

open Sys2Proof Sys2Proof.Machine

/-! ### Reset, the invariant, runs -/

/-- R38: every component has its reset value, for every setting of the parameters. -/
def Obligations.ResetHoldsSpecifiedValues : Prop :=
  State.reset = State.resetWith defaultConfig ∧
  ∀ c : Config,
    (∀ r, (State.resetWith c).readV r = 0) ∧ (State.resetWith c).i = 0 ∧ (State.resetWith c).pc = 0x200 ∧
    (State.resetWith c).sp = 0 ∧ (State.resetWith c).stack = [] ∧
    (State.resetWith c).dt = 0 ∧ (State.resetWith c).st = 0 ∧
    (∀ k : Fin 80, (State.resetWith c).readByte (BitVec.ofNat 12 (c.fontBase.val + k.val)) = c.fontData[k.val]) ∧
    (∀ a : Addr, a.toNat < c.fontBase.val ∨ c.fontBase.val + 80 ≤ a.toNat → (State.resetWith c).readByte a = 0) ∧
    (∀ row col, (State.resetWith c).pixel row col = false) ∧ (∀ k, (State.resetWith c).key k = false) ∧
    (State.resetWith c).wait = none

/-- R290: reset as a host action, from any state, also after a fatal error (R260), gives the state of R38 for the machine's
parameters. That the model's own count of draws goes on, and that a reset answers a pending error of the session, are the
model's choices (log entries 2 and 14). -/
def Obligations.HostResetReinitialisesEverything : Prop :=
  ∀ h : Session, h.aborted = false → ∃ k, HostAction.reset.apply h = some k ∧
    k.machine = { State.resetWith h.machine.config with draws := h.machine.draws } ∧ k.error = none

/-- The invariant `State.Inv` (Safety.lean) holds after reset, with the default and with any other parameters. -/
def Obligations.ResetMeetsInvariant : Prop :=
  State.reset.Inv ∧ ∀ c : Config, (State.resetWith c).Inv

/-- Every step keeps `State.Inv`: canonical memory, at most 16 return addresses (R26, R40), PC at most 0x10FE (R115), and
PC at a fetched instruction while a key wait is pending. -/
def Obligations.StepKeepsInvariant : Prop :=
  ∀ s t : State, s.Inv → step s = .next t → t.Inv

/-- Every run of host actions from a session with `Session.Inv` keeps it, and every run of R277, from a reset state with a
ROM loaded, has it at its end. The actions are the rows of R273; which of them may follow an error, and how long the error
waits for its answer, is the model's choice (log entry 14). -/
def Obligations.HostRunKeepsInvariant : Prop :=
  (∀ (actions : List HostAction) (h k : Session), h.Inv → runHost actions h = some k → k.Inv) ∧
  (∀ (s : State) (rom : List Byte) (actions : List HostAction) (k : Session), runFrom s rom actions = some k → k.Inv)

/-- R40: from a state whose stack holds at most 16 entries, every step and every host action leaves every component in
its range, and SP is the number of entries. -/
def Obligations.StepKeepsComponentRanges : Prop :=
  ∀ s t : State, s.stack.length ≤ 16 → (step s = .next t ∨ ∃ (a : HostAction) (h k : Session), h.machine = s ∧ a.apply h = some k ∧ k.machine = t) →
    (∀ r, (t.readV r).toNat ≤ 255) ∧ t.i.toNat ≤ 65535 ∧ t.pc.toNat ≤ 65535 ∧
    t.sp.toNat ≤ 16 ∧ t.sp.toNat = t.stack.length ∧ t.dt.toNat ≤ 255 ∧ t.st.toNat ≤ 255 ∧
    (∀ row col, t.pixel row col = false ∨ t.pixel row col = true) ∧ (∀ k, t.key k = false ∨ t.key k = true) ∧
    (∀ w, t.wait = some w → w.dest.val ≤ 15)

/-! ### Encoding -/

/-- Decoding the word of a well-formed instruction gives the instruction back, under both settings of STRICT_DECODE. The
ignored bits of R82 are an operand of the model's instructions (log entry 3). -/
def Obligations.DecodeOfEncode : Prop :=
  ∀ (strict : Bool) (i : Instr), i.wellFormed strict = true → decode strict (encode i) = .ok i

/-- A word that decodes is the word of the instruction it decodes to, and that instruction is well-formed. R84's decoder
drops the ignored bits; that no bit is dropped here is the model's reading, which keeps them as an operand (log
entry 3). -/
def Obligations.EncodeOfDecode : Prop :=
  ∀ (strict : Bool) (op : Word) (i : Instr), decode strict op = .ok i → encode i = op ∧ i.wellFormed strict = true

/-- The illegal words of R85 under the default decode, family by family. -/
def Obligations.IllegalWordsAreRejected : Prop :=
  ∀ op : Word, decode false op = .error (.invalid op) ↔
    (op.toNat / 4096 = 0x0 ∧ op.toNat % 256 ∉ [0xE0, 0xEE]) ∨
    (op.toNat / 4096 = 0x8 ∧ op.toNat % 16 ∈ [0x8, 0x9, 0xA, 0xB, 0xC, 0xD, 0xF]) ∨
    (op.toNat / 4096 = 0xE ∧ op.toNat % 256 ∉ [0x9E, 0xA1]) ∨
    (op.toNat / 4096 = 0xF ∧ op.toNat % 256 ∉ [0x07, 0x0A, 0x15, 0x18, 0x1E, 0x29, 0x33, 0x55, 0x65])

/-- With STRICT_DECODE exactly the words whose ignored bits are 0 stay legal, and they keep their meaning (R84, R85). -/
def Obligations.StrictDecodeDropsNonzeroIgnoredBits : Prop :=
  ∀ (op : Word) (i : Instr), decode true op = .ok i ↔
    decode false op = .ok i ∧
    ((op.toNat / 4096 = 0x0 → op.toNat / 256 % 16 = 0) ∧
      (op.toNat / 4096 = 0x5 ∨ op.toNat / 4096 = 0x9 → op.toNat % 16 = 0))

/-- R90: the spec's five example words. -/
def Obligations.SampleWordsDecode : Prop :=
  decode false 0x6A02 = .ok (.ldImm 0xA 0x02) ∧ decode false 0x6B03 = .ok (.ldImm 0xB 0x03) ∧
  decode false 0x8AB4 = .ok (.addReg 0xA 0xB) ∧ decode false 0x00E0 = .ok (.cls 0) ∧
  decode false 0xFFFF = .error (.invalid 0xFFFF)

/-- R86: a word whose ignored bits are not 0 executes as the canonical form (an error still carries the raw word). -/
def Obligations.IgnoredBitsDoNotChangeTheEffect : Prop :=
  (∀ ign s, exec (.cls ign) s = exec (.cls 0) s) ∧
  (∀ ign (s : State), s.stack ≠ [] → ∃ t, exec (.ret ign) s = .next t ∧ exec (.ret 0) s = .next t) ∧
  (∀ x y ign s, exec (.seReg x y ign) s = exec (.seReg x y 0) s) ∧
  (∀ x y ign s, exec (.sneReg x y ign) s = exec (.sneReg x y 0) s)

/-! ### The step -/

/-- R111: a pending wait is polled; otherwise the bound, the fetch of two big-endian bytes (R62), the decode, and the
instruction. -/
def Obligations.StepRunsDecodedInstruction : Prop :=
  ∀ s : State,
    (∀ w, s.wait = some w → step s = .next (s.keyWaitPoll w)) ∧
    (s.wait = none → 4096 ≤ s.pc.toNat + 1 → step s = .fault (.memoryFault s.pc)) ∧
    (∀ op : Word, s.wait = none → s.pc.toNat + 1 < 4096 →
      op.toNat = (s.readByte (BitVec.ofNat 12 s.pc.toNat)).toNat * 256 +
        (s.readByte (BitVec.ofNat 12 (s.pc.toNat + 1))).toNat →
      (∀ r, decode s.config.strictDecode op = .error r → step s = .fault (.invalidOpcode op)) ∧
      (∀ i, decode s.config.strictDecode op = .ok i → step s = exec i s))

/-- Which error a step raises, in the order of the checks of R257; it carries PC for a MemoryFault and the fetched raw
word for the others (R250). R254 speaks of SP = 16: that a stack of more than 16 entries, which no run holds, overflows
as well is the model's choice (log entry 11). -/
def Obligations.FaultsInPriorityOrder : Prop :=
  ∀ (s : State) (e : Fault), step s = .fault e ↔
    s.wait = none ∧
    ((4096 ≤ s.pc.toNat + 1 ∧ e = .memoryFault s.pc) ∨
      (s.pc.toNat + 1 < 4096 ∧ ∃ op, s.fetchWord = .ok op ∧
        (((∃ r, decode s.config.strictDecode op = .error r) ∧ e = .invalidOpcode op) ∨
          ((∃ nnn, decode s.config.strictDecode op = .ok (.call nnn)) ∧ 16 ≤ s.stack.length ∧ e = .stackOverflow op) ∨
          ((∃ ign, decode s.config.strictDecode op = .ok (.ret ign)) ∧ s.stack = [] ∧ e = .stackUnderflow op))))

/-- Every instruction has a meaning: no step is refused, in any state. -/
def Obligations.StepNeverRefuses : Prop :=
  ∀ (s : State) (r : Refusal), step s ≠ .refused r

/-- R112: while a wait is pending the step raises no error, and what memory holds, at PC or anywhere, does not matter. -/
def Obligations.PendingWaitFetchesNothing : Prop :=
  ∀ (s : State) (w : KeyWait) (m : Memory), s.wait = some w →
    ∃ t, step s = .next t ∧ step { s with mem := m } = .next { t with mem := m } ∧
      (t.wait = none ∨ t.wait = some ⟨w.dest, s.keys⟩)

/-- R224: a poll completes with the lowest newly pressed key, or remembers this observation. -/
def Obligations.PollTakesLowestNewPress : Prop :=
  ∀ (s : State) (w : KeyWait), s.wait = some w →
    (∀ k, newPress w.seen s.keys k → (∀ j, newPress w.seen s.keys j → k ≤ j) →
      ∃ t, step s = .next t ∧ (t.readV w.dest).toNat = k.val ∧ t.wait = none ∧ t.pc = s.pc + 2 ∧
        ChangesOnly { regs := only w.dest, wait := true } s t) ∧
    ((∀ k, ¬newPress w.seen s.keys k) →
      ∃ t, step s = .next t ∧ t.wait = some ⟨w.dest, s.keys⟩ ∧ t.pc = s.pc ∧ ChangesOnly { wait := true } s t)

/-- The wait holds: over any number of steps with no key transition PC does not move (R224, R301). -/
def Obligations.WaitHoldsWithoutNewPress : Prop :=
  ∀ (n : Nat) (s : State) (w : KeyWait), s.wait = some w → (∀ k, ¬newPress w.seen s.keys k) →
    ∃ t, Host.Core.run core n s = .next t ∧ t.pc = s.pc ∧ (∃ seen, t.wait = some ⟨w.dest, seen⟩) ∧
      ChangesOnly { wait := true } s t

/-- The hold is lifted by pressing a key that the last poll saw as not pressed, and a step (R301). -/
def Obligations.NewPressEndsTheWait : Prop :=
  ∀ (s : State) (w : KeyWait) (k : KeyIdx), s.wait = some w → w.seen[k.val] = false →
    ∃ t, step (s.setKey k true) = .next t ∧ t.wait = none ∧ t.pc = s.pc + 2 ∧ (t.readV w.dest).toNat ≤ k.val

/-! ### Control transfer -/

/-- R131: RET, and its error with the raw word. -/
def Obligations.RetPopsIntoPC : Prop :=
  (∀ ign (s : State) rest a, s.stack = rest ++ [a] →
    ∃ t, exec (.ret ign) s = .next t ∧ t.pc = a ∧ t.stack = rest ∧ t.sp = s.sp - 1 ∧
      ChangesOnly { stack := true } s t) ∧
  (∀ (ign : Nibble) (s : State), s.stack = [] →
    exec (.ret ign) s = .fault (.stackUnderflow (BitVec.ofNat 16 (ign.toNat * 256 + 0xEE))))

/-- R132: JP nnn. -/
def Obligations.JpSetsPC : Prop :=
  ∀ (nnn : Addr) (s : State), ∃ t, exec (.jp nnn) s = .next t ∧ t.pc.toNat = nnn.toNat ∧ ChangesOnly {} s t

/-- R133: CALL nnn pushes PC + 2 below the depth limit, and its error with the raw word at the limit. -/
def Obligations.CallPushesReturnAddress : Prop :=
  (∀ (nnn : Addr) (s : State), s.stack.length < 16 →
    ∃ t, exec (.call nnn) s = .next t ∧ t.pc.toNat = nnn.toNat ∧ t.stack = s.stack ++ [s.pc + 2] ∧
      t.sp = s.sp + 1 ∧ ChangesOnly { stack := true } s t) ∧
  (∀ (nnn : Addr) (s : State), s.stack.length = 16 →
    exec (.call nnn) s = .fault (.stackOverflow (BitVec.ofNat 16 (0x2000 + nnn.toNat))))

/-- R139: a RET that finds the stack as the CALL left it returns to the word after the CALL, at every depth. -/
def Obligations.CallThenRetRoundTrip : Prop :=
  ∀ (nnn : Addr) (ign : Nibble) (s : State), s.stack.length < 16 →
    ∃ t, exec (.call nnn) s = .next t ∧
      ∀ u : State, u.stack = t.stack →
        ∃ r, exec (.ret ign) u = .next r ∧ r.pc = s.pc + 2 ∧ r.stack = s.stack ∧ r.sp = s.sp

/-- R134, R135: SE and SNE with an immediate. -/
def Obligations.SkipsOnImmediate : Prop :=
  ∀ (x : RegIdx) (kk : Byte) (s : State),
    (∃ t, exec (.seImm x kk) s = .next t ∧ t.pc = (if s.readV x = kk then s.pc + 4 else s.pc + 2) ∧
      ChangesOnly {} s t) ∧
    (∃ t, exec (.sneImm x kk) s = .next t ∧ t.pc = (if s.readV x ≠ kk then s.pc + 4 else s.pc + 2) ∧
      ChangesOnly {} s t)

/-- R136, R137: SE and SNE on two registers. -/
def Obligations.SkipsOnRegisters : Prop :=
  ∀ (x y : RegIdx) (ign : Nibble) (s : State),
    (∃ t, exec (.seReg x y ign) s = .next t ∧ t.pc = (if s.readV x = s.readV y then s.pc + 4 else s.pc + 2) ∧
      ChangesOnly {} s t) ∧
    (∃ t, exec (.sneReg x y ign) s = .next t ∧ t.pc = (if s.readV x ≠ s.readV y then s.pc + 4 else s.pc + 2) ∧
      ChangesOnly {} s t)

/-- R138: JP V0, nnn; the sum is not masked, and JUMP_WITH_VX selects the register. -/
def Obligations.JpV0AddsRegister : Prop :=
  ∀ (nnn : Addr) (s : State) (r : RegIdx), r.val = (if s.config.jumpWithVX then nnn.toNat / 256 else 0) →
    ∃ t, exec (.jpV0 nnn) s = .next t ∧ t.pc.toNat = nnn.toNat + (s.readV r).toNat ∧ ChangesOnly {} s t

/-! ### Register arithmetic and logic -/

/-- R151: LD Vx, kk. -/
def Obligations.LdImmWritesRegister : Prop :=
  ∀ (x : RegIdx) (kk : Byte) (s : State),
    ∃ t, exec (.ldImm x kk) s = .next t ∧ t.readV x = kk ∧ t.pc = s.pc + 2 ∧ ChangesOnly { regs := only x } s t

/-- R152: ADD Vx, kk records no carry; VF is no exception to the frame. -/
def Obligations.AddImmWrapsWithoutFlag : Prop :=
  ∀ (x : RegIdx) (kk : Byte) (s : State),
    ∃ t, exec (.addImm x kk) s = .next t ∧ (t.readV x).toNat = ((s.readV x).toNat + kk.toNat) % 256 ∧
      t.pc = s.pc + 2 ∧ ChangesOnly { regs := only x } s t

/-- R153: LD Vx, Vy. -/
def Obligations.LdRegCopies : Prop :=
  ∀ (x y : RegIdx) (s : State),
    ∃ t, exec (.ldReg x y) s = .next t ∧ t.readV x = s.readV y ∧ t.pc = s.pc + 2 ∧ ChangesOnly { regs := only x } s t

/-- R154, R155, R156: OR, AND, XOR, and VF reset last when LOGIC_RESETS_VF. -/
def Obligations.LogicOperations : Prop :=
  ∀ (i : Instr) (x y : RegIdx) (s : State) (result : Byte),
    (i = .orReg x y ∧ result = s.readV x ||| s.readV y) ∨ (i = .andReg x y ∧ result = s.readV x &&& s.readV y) ∨
      (i = .xorReg x y ∧ result = s.readV x ^^^ s.readV y) →
    ∃ t, exec i s = .next t ∧ t.pc = s.pc + 2 ∧
      (s.config.logicResetsVF = false → t.readV x = result ∧ ChangesOnly { regs := only x } s t) ∧
      (s.config.logicResetsVF = true →
        (x ≠ VF → t.readV x = result) ∧ t.readV VF = 0 ∧ ChangesOnly { regs := onlyAndVF x } s t)

/-- R157: ADD Vx, Vy; the carry is in VF even when x = 0xF. -/
def Obligations.AddRegSetsCarry : Prop :=
  ∀ (x y : RegIdx) (s : State),
    ∃ t, exec (.addReg x y) s = .next t ∧
      (x ≠ VF → (t.readV x).toNat = ((s.readV x).toNat + (s.readV y).toNat) % 256) ∧
      (t.readV VF).toNat = (if 256 ≤ (s.readV x).toNat + (s.readV y).toNat then 1 else 0) ∧
      t.pc = s.pc + 2 ∧ ChangesOnly { regs := onlyAndVF x } s t

/-- R158: SUB Vx, Vy; VF = 1 when no borrow, equality included. -/
def Obligations.SubSetsNoBorrow : Prop :=
  ∀ (x y : RegIdx) (s : State),
    ∃ t, exec (.subReg x y) s = .next t ∧
      (x ≠ VF → (t.readV x).toNat = (256 + (s.readV x).toNat - (s.readV y).toNat) % 256) ∧
      (t.readV VF).toNat = (if (s.readV y).toNat ≤ (s.readV x).toNat then 1 else 0) ∧
      t.pc = s.pc + 2 ∧ ChangesOnly { regs := onlyAndVF x } s t

/-- R160: SUBN Vx, Vy. -/
def Obligations.SubnSetsNoBorrow : Prop :=
  ∀ (x y : RegIdx) (s : State),
    ∃ t, exec (.subn x y) s = .next t ∧
      (x ≠ VF → (t.readV x).toNat = (256 + (s.readV y).toNat - (s.readV x).toNat) % 256) ∧
      (t.readV VF).toNat = (if (s.readV x).toNat ≤ (s.readV y).toNat then 1 else 0) ∧
      t.pc = s.pc + 2 ∧ ChangesOnly { regs := onlyAndVF x } s t

/-- R159, R161: SHR and SHL by one bit of the register that SHIFT_SOURCE selects. -/
def Obligations.ShiftsByOne : Prop :=
  ∀ (x y : RegIdx) (s : State) (a : Nat),
    a = (if s.config.shiftSource = .vy then s.readV y else s.readV x).toNat →
    (∃ t, exec (.shr x y) s = .next t ∧ (x ≠ VF → (t.readV x).toNat = a / 2) ∧ (t.readV VF).toNat = a % 2 ∧
      t.pc = s.pc + 2 ∧ ChangesOnly { regs := onlyAndVF x } s t) ∧
    (∃ t, exec (.shl x y) s = .next t ∧ (x ≠ VF → (t.readV x).toNat = a * 2 % 256) ∧ (t.readV VF).toNat = a / 128 ∧
      t.pc = s.pc + 2 ∧ ChangesOnly { regs := onlyAndVF x } s t)

/-- RND takes one fresh draw and writes it masked (R162); the second part holds for EVERY byte the draw may answer. That
draws are numbered by a counter of State, which RND counts up, is the model's choice (log entry 2). -/
def Obligations.RndMasksAnyDraw : Prop :=
  (∀ (x : RegIdx) (kk : Byte) (s : State),
    ∃ t, exec (.rnd x kk) s = .next t ∧ t = rndWith (Config.randomByte s.draws) x kk s) ∧
  (∀ (r : Byte) (x : RegIdx) (kk : Byte) (s : State),
    (rndWith r x kk s).readV x = r &&& kk ∧ (rndWith r x kk s).pc = s.pc + 2 ∧
    (rndWith r x kk s).draws = s.draws + 1 ∧
    ChangesOnly { regs := only x, draws := true } s (rndWith r x kk s))

/-! ### Index register and memory -/

/-- R65: a data address is I + k modulo 4096, so it is always inside the store. -/
def Obligations.DataAddressWraps : Prop :=
  ∀ (s : State) (k : Nat), (s.dataAddr k).toNat = (s.i.toNat + k) % 4096

/-- R181: LD I, nnn. -/
def Obligations.LdIWritesIndex : Prop :=
  ∀ (nnn : Addr) (s : State),
    ∃ t, exec (.ldI nnn) s = .next t ∧ t.i.toNat = nnn.toNat ∧ t.pc = s.pc + 2 ∧ ChangesOnly { i := true } s t

/-- R182: ADD I, Vx wraps at 16 bits and leaves VF alone. -/
def Obligations.AddIWraps : Prop :=
  ∀ (x : RegIdx) (s : State),
    ∃ t, exec (.addI x) s = .next t ∧ t.i.toNat = (s.i.toNat + (s.readV x).toNat) % 65536 ∧ t.pc = s.pc + 2 ∧
      ChangesOnly { i := true } s t

/-- R183: LD F, Vx. -/
def Obligations.LdFPointsAtGlyph : Prop :=
  ∀ (x : RegIdx) (s : State),
    ∃ t, exec (.ldF x) s = .next t ∧ t.i.toNat = s.config.fontBase.val + 5 * ((s.readV x).toNat % 16) ∧
      t.pc = s.pc + 2 ∧ ChangesOnly { i := true } s t

/-- R184: LD B, Vx stores three decimal digits and no other byte. -/
def Obligations.LdBStoresDigits : Prop :=
  ∀ (x : RegIdx) (s : State),
    ∃ t, exec (.ldB x) s = .next t ∧
      (t.readByte (s.dataAddr 0)).toNat = (s.readV x).toNat / 100 ∧
      (t.readByte (s.dataAddr 1)).toNat = (s.readV x).toNat / 10 % 10 ∧
      (t.readByte (s.dataAddr 2)).toNat = (s.readV x).toNat % 10 ∧
      t.pc = s.pc + 2 ∧
      ChangesOnly { mem := fun a => a == s.dataAddr 0 || a == s.dataAddr 1 || a == s.dataAddr 2 } s t

/-- R185: LD [I], Vx stores V0 to Vx and no other byte; I moves only with LOAD_STORE_INCREMENTS_I. -/
def Obligations.StoreRegsWritesBlock : Prop :=
  ∀ (x : RegIdx) (s : State),
    ∃ t, exec (.storeRegs x) s = .next t ∧
      (∀ k : RegIdx, k ≤ x → t.readByte (s.dataAddr k.val) = s.readV k) ∧
      (s.config.loadStoreIncrementsI = true → t.i.toNat = (s.i.toNat + x.val + 1) % 65536) ∧
      t.pc = s.pc + 2 ∧
      ChangesOnly { mem := s.blockAddrs x, i := s.config.loadStoreIncrementsI } s t

/-- R186: LD Vx, [I] loads V0 to Vx and no other register. -/
def Obligations.LoadRegsReadsBlock : Prop :=
  ∀ (x : RegIdx) (s : State),
    ∃ t, exec (.loadRegs x) s = .next t ∧
      (∀ k : RegIdx, k ≤ x → t.readV k = s.readByte (s.dataAddr k.val)) ∧
      (s.config.loadStoreIncrementsI = true → t.i.toNat = (s.i.toNat + x.val + 1) % 65536) ∧
      t.pc = s.pc + 2 ∧
      ChangesOnly { regs := fun r => decide (r ≤ x), i := s.config.loadStoreIncrementsI } s t

/-- A stored byte is seen by the next fetch of it (R75): after LD [I], Vx with x at least 1, the word at DataAddr(0) is
V0, V1. -/
def Obligations.StoredWordIsFetched : Prop :=
  ∀ (x : RegIdx) (s : State), 1 ≤ x.val → (s.dataAddr 0).toNat + 1 < 4096 →
    ∃ t, exec (.storeRegs x) s = .next t ∧
      ∀ u : State, u.mem = t.mem → u.config = t.config → u.pc.toNat = (s.dataAddr 0).toNat →
        u.fetchWord = .ok (BitVec.ofNat 16 ((s.readV 0).toNat * 256 + (s.readV 1).toNat))

/-! ### Display -/

/-- R202: CLS. -/
def Obligations.ClsClearsDisplay : Prop :=
  ∀ (ign : Nibble) (s : State),
    ∃ t, exec (.cls ign) s = .next t ∧ (∀ row col, t.pixel row col = false) ∧ t.pc = s.pc + 2 ∧
      ChangesOnly { disp := true } s t

/-- R203: DRW toggles exactly the pixels the sprite covers, and VF is 1 exactly when one of them was on. -/
def Obligations.DrwTogglesCoveredPixels : Prop :=
  ∀ (x y : RegIdx) (n : Fin 16) (s : State),
    ∃ t, exec (.drw x y n) s = .next t ∧
      (∀ row col, s.spriteCovers x y n row col → t.pixel row col = !s.pixel row col) ∧
      (∀ row col, ¬s.spriteCovers x y n row col → t.pixel row col = s.pixel row col) ∧
      ((∃ row col, s.spriteCovers x y n row col ∧ s.pixel row col = true) → t.readV VF = 1) ∧
      ((¬∃ row col, s.spriteCovers x y n row col ∧ s.pixel row col = true) → t.readV VF = 0) ∧
      t.pc = s.pc + 2 ∧ ChangesOnly { regs := only VF, disp := true } s t

/-- R204: the same sprite drawn again at the same position, with no display write between, restores the buffer; it
reports a collision exactly when a covered pixel was off before the first draw. -/
def Obligations.DoubleDrawRestoresBuffer : Prop :=
  ∀ (x y : RegIdx) (n : Fin 16) (s u : State),
    ∃ t, exec (.drw x y n) s = .next t ∧
      (u.disp = t.disp → u.config = s.config → u.readV x = s.readV x → u.readV y = s.readV y →
        (∀ r, r < n.val → u.readByte (u.dataAddr r) = s.readByte (s.dataAddr r)) →
        ∃ w, exec (.drw x y n) u = .next w ∧ (∀ row col, w.pixel row col = s.pixel row col) ∧
          (w.readV VF = 1 ↔ ∃ row col, s.spriteCovers x y n row col ∧ s.pixel row col = false))

/-- R205: only CLS and DRW write the display, and no instruction but DRW reads it. -/
def Obligations.OnlyDisplayInstructionsTouchDisplay : Prop :=
  (∀ (i : Instr) (s t : State), exec i s = .next t → t.disp ≠ s.disp →
    (∃ ign, i = .cls ign) ∨ ∃ x y n, i = .drw x y n) ∧
  (∀ (i : Instr) (s t : State) (d : Display), exec i s = .next t → (∀ x y n, i ≠ .drw x y n) → (∀ ign, i ≠ .cls ign) →
    exec i (s.setDisp d) = .next (t.setDisp d)) ∧
  (∀ (ign : Nibble) (s : State) (d : Display), exec (.cls ign) (s.setDisp d) = exec (.cls ign) s)

/-! ### Input and timers -/

/-- R221, R222: SKP and SKNP test key V[x] mod 16. -/
def Obligations.SkipsOnKey : Prop :=
  ∀ (x : RegIdx) (s : State) (k : KeyIdx), k.val = (s.readV x).toNat % 16 →
    (∃ t, exec (.skp x) s = .next t ∧ t.pc = (if s.key k = true then s.pc + 4 else s.pc + 2) ∧ ChangesOnly {} s t) ∧
    (∃ t, exec (.sknp x) s = .next t ∧ t.pc = (if s.key k = false then s.pc + 4 else s.pc + 2) ∧ ChangesOnly {} s t)

/-- R223: the step of LD Vx, K begins the wait and does not advance PC. A key that was not pressed then and is pressed
before the next step completes it (R224): Vx gets that key and PC advances by 2. -/
def Obligations.LdKBeginsWait : Prop :=
  ∀ (x : RegIdx) (s : State),
    ∃ t, exec (.ldVxK x) s = .next t ∧ t.wait = some ⟨x, s.keys⟩ ∧ t.pc = s.pc ∧ ChangesOnly { wait := true } s t ∧
      ∀ k, s.key k = false →
        ∃ u, step (t.setKey k true) = .next u ∧ (u.readV x).toNat = k.val ∧ u.wait = none ∧ u.pc = s.pc + 2 ∧
          ChangesOnly { regs := only x, keys := true, wait := true } s u

/-- R225, R226, R227: the timer transfers. -/
def Obligations.TimerTransfers : Prop :=
  ∀ (x : RegIdx) (s : State),
    (∃ t, exec (.ldVxDT x) s = .next t ∧ t.readV x = s.dt ∧ t.pc = s.pc + 2 ∧ ChangesOnly { regs := only x } s t) ∧
    (∃ t, exec (.ldDTVx x) s = .next t ∧ t.dt = s.readV x ∧ t.pc = s.pc + 2 ∧ ChangesOnly { dt := true } s t) ∧
    (∃ t, exec (.ldSTVx x) s = .next t ∧ t.st = s.readV x ∧ t.pc = s.pc + 2 ∧
      (t.soundActive = true ↔ 0 < (s.readV x).toNat) ∧ ChangesOnly { st := true } s t)

/-- R228: no instruction reads ST; DT is read only by LD Vx, DT; of the instructions only LD DT, Vx and LD ST, Vx write
the timers, a poll writes neither, and a tick and a reset write them. -/
def Obligations.TimerReadersAndWriters : Prop :=
  (∀ (i : Instr) (s t : State) (b : Byte), exec i s = .next t → (∀ x, i ≠ .ldSTVx x) →
    exec i (s.setST b) = .next (t.setST b)) ∧
  (∀ (x : RegIdx) (s : State) (b : Byte), exec (.ldSTVx x) (s.setST b) = exec (.ldSTVx x) s) ∧
  (∀ (i : Instr) (s t : State) (b : Byte), exec i s = .next t → (∀ x, i ≠ .ldVxDT x) → (∀ x, i ≠ .ldDTVx x) →
    exec i (s.setDT b) = .next (t.setDT b)) ∧
  (∀ (x : RegIdx) (s : State) (b : Byte), exec (.ldDTVx x) (s.setDT b) = exec (.ldDTVx x) s) ∧
  (∀ (i : Instr) (s t : State), exec i s = .next t →
    (t.dt ≠ s.dt → ∃ x, i = .ldDTVx x) ∧ (t.st ≠ s.st → ∃ x, i = .ldSTVx x)) ∧
  (∀ (s : State) (w : KeyWait), (s.keyWaitPoll w).dt = s.dt ∧ (s.keyWaitPoll w).st = s.st) ∧
  (∀ (a : HostAction) (h k : Session), a ≠ .step → a.apply h = some k →
    (k.machine.dt ≠ h.machine.dt ∨ k.machine.st ≠ h.machine.st) → a = .tick ∨ a = .reset)

/-- One tick (R265), at any time of a run (R267). That it may come while an error is unanswered, and leaves it so, is the
model's choice (log entry 14). -/
def Obligations.TickDecrementsBoth : Prop :=
  ∀ h : Session, h.ended = false → ∃ k, HostAction.tick.apply h = some k ∧
    k.machine.dt.toNat = h.machine.dt.toNat - 1 ∧ k.machine.st.toNat = h.machine.st.toNat - 1 ∧
    k.machine.pc = h.machine.pc ∧ k.error = h.error ∧ ChangesOnly { dt := true, st := true } h.machine k.machine

/-- The timer law of R269: over any run without a reset in which no step executes LD DT, Vx, DT ends at max(v − t, 0) for
the t ticks of the run, whatever other actions and instructions fall between them; ST likewise without LD ST, Vx. And n
ticks on end can be run in every session that has not ended, and change the timers alone; that they may come while an error
is unanswered, and leave it so, is the model's choice (log entry 14). -/
def Obligations.TicksReachZero : Prop :=
  (∀ (actions : List HostAction) (h k : Session), runHost actions h = some k → .reset ∉ actions →
    ((∀ x, .ldDTVx x ∉ instrsOfRun actions h) → k.machine.dt.toNat = h.machine.dt.toNat - actions.count .tick) ∧
    ((∀ x, .ldSTVx x ∉ instrsOfRun actions h) → k.machine.st.toNat = h.machine.st.toNat - actions.count .tick)) ∧
  (∀ (n : Nat) (h : Session), h.ended = false → ∃ k, runHost (List.replicate n .tick) h = some k ∧
    k.machine.pc = h.machine.pc ∧ k.error = h.error ∧ ChangesOnly { dt := true, st := true } h.machine k.machine)

/-! ### The host interface -/

/-- The `set_key` of R272. That it may come while an error is unanswered, and leaves it so, is the model's choice (log
entry 14). -/
def Obligations.SetKeyWritesOneKey : Prop :=
  ∀ (i : KeyIdx) (p : Bool) (h : Session), h.ended = false →
    ∃ k, (HostAction.setKey i p).apply h = some k ∧ k.machine.key i = p ∧
      (∀ j, j ≠ i → k.machine.key j = h.machine.key j) ∧ k.machine.pc = h.machine.pc ∧ k.error = h.error ∧
      ChangesOnly { keys := true } h.machine k.machine

/-- The loader writes the ROM's bytes from 0x200 on and nothing else, and refuses a ROM that is too large (R296). R296
speaks of a load after a reset: that a refused load leaves a machine in any other state as it was is the model's choice
(log entry 13), and so is that a load may come while an error is unanswered, and leaves it so (log entry 14). -/
def Obligations.LoadRomWritesImage : Prop :=
  ∀ (rom : List Byte) (h : Session), h.ended = false →
    (rom.length ≤ 3584 →
      ∃ t, h.machine.loadRom rom = .ok t ∧ (HostAction.loadRom rom).apply h = some { h with machine := t } ∧
        (∀ j (hj : j < rom.length), t.readByte (BitVec.ofNat 12 (0x200 + j)) = rom[j]) ∧ t.pc = h.machine.pc ∧
        ChangesOnly { mem := fun a => decide (0x200 ≤ a.toNat ∧ a.toNat < 0x200 + rom.length) } h.machine t) ∧
    (3584 < rom.length →
      h.machine.loadRom rom = .error .romTooLarge ∧ (HostAction.loadRom rom).apply h = some h)

/-- The host's answers to an error (R260, R261, R273, R277). The failing step leaves the machine as it was, and calling
`step()` again gives the same error. After an InvalidOpcode under the policy `skip` the run has not ended and
`skip_invalid`, an action of its own, may be performed; after any other error, or under `halt`, the run has ended. Nothing
follows the end of a run, and nothing but a reset may be performed then. An unanswered error is answered by a reset or a
skip alone, and there is no skip without one. That the host's knowledge of the error is a field of a session is the
model's choice (log entry 14). -/
def Obligations.HostAnswersErrorsByPolicy : Prop :=
  (∀ (h : Session) (e : Fault), h.ended = false → step h.machine = .fault e →
    ∃ k, HostAction.step.apply h = some k ∧ k.machine = h.machine ∧ k.error = some e ∧ k.aborted = false ∧
      k.callStep = some k ∧
      (((∃ op, e = .invalidOpcode op) ∧ h.machine.config.invalidOpcodePolicy = .skip) →
        k.ended = false ∧ HostAction.step.apply k = some k ∧
          ∃ t, HostAction.skipInvalid.apply k = some t ∧ t.machine.pc = h.machine.pc + 2 ∧
            ChangesOnly {} h.machine t.machine ∧ t.error = none ∧ t.ended = false) ∧
      (¬((∃ op, e = .invalidOpcode op) ∧ h.machine.config.invalidOpcodePolicy = .skip) → k.ended = true)) ∧
  (∀ (h : Session) (a : HostAction) (rest : List HostAction), h.ended = true →
    runHost (a :: rest) h = none ∧ (∀ k, a.apply h = some k → a = .reset ∧ h.aborted = false)) ∧
  (∀ (a : HostAction) (h k : Session), h.error ≠ none → a.apply h = some k → k.error = none →
    a = .reset ∨ (a = .skipInvalid ∧ k.machine.pc = h.machine.pc + 2)) ∧
  (∀ h : Session, h.error = none → HostAction.skipInvalid.apply h = none)

/-- A machine stepped with no ROM stops at its first step with InvalidOpcode 0x0000 (R297). -/
def Obligations.FirstStepWithoutRomFaults : Prop :=
  step State.reset = .fault (.invalidOpcode 0x0000)

/-! ### Whole-machine rules -/

/-- The "W" columns of R23: every instruction writes only what its row of the table says (`writesOf`, Safety.lean), to
memory only the bytes at the addresses its meaning computes. -/
def Obligations.InstructionsWriteOnlyTheirRow : Prop :=
  ∀ (i : Instr) (s t : State), exec i s = .next t → ChangesOnly (writesOf i s) s t

/-- R114: each instruction updates PC as its class says (`pcClassOf`, Safety.lean); a poll moves PC by 2 exactly when it
completes the wait. -/
def Obligations.PcUpdateFollowsClass : Prop :=
  (∀ (i : Instr) (s t : State), exec i s = .next t →
    (pcClassOf i = .next → t.pc = s.pc + 2) ∧
    (pcClassOf i = .skip → t.pc = if skipCondition i s = true then s.pc + 4 else s.pc + 2) ∧
    (pcClassOf i = .jump →
      (∃ nnn : Addr, (i = .jp nnn ∨ i = .call nnn) ∧ t.pc.toNat = nnn.toNat) ∨
      (∃ nnn : Addr, i = .jpV0 nnn ∧ t.pc.toNat = nnn.toNat + (s.readV (s.jumpRegister nnn)).toNat) ∨
      (∃ ign, i = .ret ign ∧ s.stack.getLast? = some t.pc)) ∧
    (pcClassOf i = .wait → t.pc = s.pc ∧ t.wait ≠ none)) ∧
  (∀ (s : State) (w : KeyWait), s.wait = some w →
    ∃ t, step s = .next t ∧ (t.wait = none → t.pc = s.pc + 2) ∧ (t.wait ≠ none → t.pc = s.pc))

/-- No step writes the keys (R32) or the parameters (R37), and no host action writes the parameters. -/
def Obligations.KeysAndParametersAreReadOnly : Prop :=
  (∀ s t : State, step s = .next t → t.keys = s.keys ∧ t.config = s.config) ∧
  (∀ (actions : List HostAction) (h k : Session), runHost actions h = some k → k.machine.config = h.machine.config)
end

