-- ==== Sys2Proof/Laws/Memory.lean ====
section
/-! SUPPORT. The laws of the byte store: read after write, the canonical form is kept, and canonical memories that read
alike are equal. -/

namespace Sys2Proof.Machine.Memory

variable {bg : Nat → Byte} {m : Memory} {a x : Nat} {b : Byte}

theorem erase_sublist (a : Nat) (m : Memory) : (Memory.erase a m).Sublist m := by
  induction m with
  | nil => exact List.Sublist.slnil
  | cons p rest ih =>
    simp only [Memory.erase]
    split
    · exact ih.cons p
    · exact ih.cons_cons p

theorem erase_keys (a : Nat) (m : Memory) : ∀ p ∈ Memory.erase a m, p.1 ≠ a := by
  induction m with
  | nil => simp [Memory.erase]
  | cons p rest ih =>
    simp only [Memory.erase]
    split
    · exact ih
    · rename_i h
      simpa [h] using ih

theorem read_of_not_listed (h : ∀ p ∈ m, p.1 ≠ a) : Memory.read bg a m = bg a := by
  induction m with
  | nil => rfl
  | cons p rest ih =>
    have hp : p.1 ≠ a := h p (by simp)
    simpa [Memory.read, hp] using ih fun q hq => h q (by simp [hq])

theorem read_erase_other (h : x ≠ a) : Memory.read bg x (Memory.erase a m) = Memory.read bg x m := by
  induction m with
  | nil => rfl
  | cons p rest ih =>
    simp only [Memory.erase]
    split
    · rename_i hp
      have hne : ¬p.1 = x := fun e => h (e ▸ hp)
      simpa [Memory.read, hne] using ih
    · simp only [Memory.read, ih]

theorem read_insert (h : ∀ p ∈ m, p.1 ≠ a) :
    Memory.read bg x (Memory.insert a b m) = if x = a then b else Memory.read bg x m := by
  induction m with
  | nil => simp [Memory.insert, Memory.read, eq_comm]
  | cons p rest ih =>
    have hp : p.1 ≠ a := h p (by simp)
    have ih' := ih fun q hq => h q (by simp [hq])
    simp only [Memory.insert]
    split
    · simp [Memory.read, eq_comm]
    · simp only [Memory.read, ih']
      by_cases hx : p.1 = x
      · have : x ≠ a := fun e => hp (hx.trans e)
        simp [hx, this]
      · simp [hx]

/-- Read after write, in every memory, canonical or not. -/
theorem read_write (bg : Nat → Byte) (m : Memory) (a x : Nat) (b : Byte) :
    Memory.read bg x (Memory.write bg a b m) = if x = a then b else Memory.read bg x m := by
  unfold Memory.write
  split
  · rename_i hb
    by_cases hx : x = a
    · subst hx
      simp [read_of_not_listed (erase_keys x m), hb]
    · simp [read_erase_other hx, hx]
  · rw [read_insert (erase_keys a m)]
    by_cases hx : x = a <;> simp [hx, read_erase_other]

theorem wf_of_sublist {m' : Memory} (h : m'.Sublist m) (hw : Memory.wf bg m) : Memory.wf bg m' :=
  ⟨hw.1.sublist h, fun p hp => hw.2 p (h.subset hp)⟩

theorem insert_mem {p : Host.Cell} (h : p ∈ Memory.insert a b m) : p = (a, b) ∨ p ∈ m := by
  induction m with
  | nil => simpa [Memory.insert] using h
  | cons q rest ih =>
    simp only [Memory.insert] at h
    split at h
    · simpa using h
    · rcases List.mem_cons.mp h with rfl | h
      · simp
      · rcases ih h with h | h <;> simp [h]

theorem insert_wf (hk : ∀ p ∈ m, p.1 ≠ a) (ha : a < memSize) (hb : b ≠ bg a) (hw : Memory.wf bg m) :
    Memory.wf bg (Memory.insert a b m) := by
  refine ⟨?_, fun p hp => ?_⟩
  · induction m with
    | nil => simp [Memory.insert]
    | cons q rest ih =>
      have hq : q.1 ≠ a := hk q (by simp)
      obtain ⟨hlt, hrest⟩ := List.pairwise_cons.mp hw.1
      simp only [Memory.insert]
      split
      · rename_i hlt'
        exact List.pairwise_cons.mpr ⟨fun r hr => by
          rcases List.mem_cons.mp hr with rfl | hr
          · exact hlt'
          · exact lt_trans hlt' (hlt r hr), hw.1⟩
      · rename_i hge
        refine List.pairwise_cons.mpr ⟨fun r hr => ?_, ih (fun p hp => hk p (by simp [hp]))
          (wf_of_sublist (List.sublist_cons_self q rest) hw)⟩
        rcases insert_mem hr with rfl | hr
        · simp only at *; omega
        · exact hlt r hr
  · rcases insert_mem hp with rfl | hp
    · exact ⟨ha, hb⟩
    · exact hw.2 p hp

/-- Every write keeps the canonical form. -/
theorem write_wf (ha : a < memSize) (hw : Memory.wf bg m) : Memory.wf bg (Memory.write bg a b m) := by
  have he := wf_of_sublist (erase_sublist a m) hw
  unfold Memory.write
  split
  · exact he
  · rename_i hb
    exact insert_wf (erase_keys a m) ha hb he

theorem read_head_of_wf {p : Host.Cell} (hw : Memory.wf bg (p :: m)) : Memory.read bg p.1 (p :: m) ≠ bg p.1 := by
  simpa [Memory.read] using (hw.2 p (by simp)).2

/-- Canonical memories that read alike at every address are the same list. -/
theorem eq_of_read_eq {m m' : Memory} (hw : Memory.wf bg m) (hw' : Memory.wf bg m')
    (h : ∀ a, Memory.read bg a m = Memory.read bg a m') : m = m' := by
  induction m generalizing m' with
  | nil =>
    cases m' with
    | nil => rfl
    | cons q rest => exact absurd (h q.1).symm (read_head_of_wf hw')
  | cons p rest ih =>
    cases m' with
    | nil => exact absurd (h p.1) (read_head_of_wf hw)
    | cons q rest' =>
      obtain ⟨hp, hpr⟩ := List.pairwise_cons.mp hw.1
      obtain ⟨hq, hqr⟩ := List.pairwise_cons.mp hw'.1
      have hkey : p.1 = q.1 := by
        rcases lt_trichotomy p.1 q.1 with hlt | heq | hlt
        · refine absurd ((h p.1).trans (read_of_not_listed fun r hr => ?_)) (read_head_of_wf hw)
          rcases List.mem_cons.mp hr with rfl | hr
          · omega
          · have := hq r hr; omega
        · exact heq
        · refine absurd ((h q.1).symm.trans (read_of_not_listed fun r hr => ?_)) (read_head_of_wf hw')
          rcases List.mem_cons.mp hr with rfl | hr
          · omega
          · have := hp r hr; omega
      have hval : p.2 = q.2 := by
        have := h p.1
        rw [Memory.read, Memory.read] at this
        simpa [hkey] using this
      have hpq : p = q := Prod.ext hkey hval
      subst hpq
      congr 1
      refine ih (wf_of_sublist (List.sublist_cons_self p rest) hw) (wf_of_sublist (List.sublist_cons_self p rest') hw')
        fun x => ?_
      by_cases hx : p.1 = x
      · subst hx
        rw [read_of_not_listed fun r hr => (hp r hr).ne', read_of_not_listed fun r hr => (hq r hr).ne']
      · simpa [Memory.read, hx] using h x

end Sys2Proof.Machine.Memory
end

