-- ==== Sys2Proof/Laws/State.lean ====
section
/-! SUPPORT. One lemma per field per named update of State, true by rfl: no later proof unfolds a record update. -/

namespace Sys2Proof.Machine

variable (s : State)


/-! ### writeV -/

@[simp] theorem writeV_v (r : RegIdx) (b : Byte) : (s.writeV r b).v = s.v.set r.val b := rfl
@[simp] theorem writeV_i (r : RegIdx) (b : Byte) : (s.writeV r b).i = s.i := rfl
@[simp] theorem writeV_pc (r : RegIdx) (b : Byte) : (s.writeV r b).pc = s.pc := rfl
@[simp] theorem writeV_stack (r : RegIdx) (b : Byte) : (s.writeV r b).stack = s.stack := rfl
@[simp] theorem writeV_dt (r : RegIdx) (b : Byte) : (s.writeV r b).dt = s.dt := rfl
@[simp] theorem writeV_st (r : RegIdx) (b : Byte) : (s.writeV r b).st = s.st := rfl
@[simp] theorem writeV_mem (r : RegIdx) (b : Byte) : (s.writeV r b).mem = s.mem := rfl
@[simp] theorem writeV_disp (r : RegIdx) (b : Byte) : (s.writeV r b).disp = s.disp := rfl
@[simp] theorem writeV_keys (r : RegIdx) (b : Byte) : (s.writeV r b).keys = s.keys := rfl
@[simp] theorem writeV_wait (r : RegIdx) (b : Byte) : (s.writeV r b).wait = s.wait := rfl
@[simp] theorem writeV_draws (r : RegIdx) (b : Byte) : (s.writeV r b).draws = s.draws := rfl
@[simp] theorem writeV_config (r : RegIdx) (b : Byte) : (s.writeV r b).config = s.config := rfl

/-! ### writeByte -/

@[simp] theorem writeByte_v (a : Addr) (b : Byte) : (s.writeByte a b).v = s.v := rfl
@[simp] theorem writeByte_i (a : Addr) (b : Byte) : (s.writeByte a b).i = s.i := rfl
@[simp] theorem writeByte_pc (a : Addr) (b : Byte) : (s.writeByte a b).pc = s.pc := rfl
@[simp] theorem writeByte_stack (a : Addr) (b : Byte) : (s.writeByte a b).stack = s.stack := rfl
@[simp] theorem writeByte_dt (a : Addr) (b : Byte) : (s.writeByte a b).dt = s.dt := rfl
@[simp] theorem writeByte_st (a : Addr) (b : Byte) : (s.writeByte a b).st = s.st := rfl
@[simp] theorem writeByte_mem (a : Addr) (b : Byte) : (s.writeByte a b).mem = Memory.write (resetByte s.config) a.toNat b s.mem := rfl
@[simp] theorem writeByte_disp (a : Addr) (b : Byte) : (s.writeByte a b).disp = s.disp := rfl
@[simp] theorem writeByte_keys (a : Addr) (b : Byte) : (s.writeByte a b).keys = s.keys := rfl
@[simp] theorem writeByte_wait (a : Addr) (b : Byte) : (s.writeByte a b).wait = s.wait := rfl
@[simp] theorem writeByte_draws (a : Addr) (b : Byte) : (s.writeByte a b).draws = s.draws := rfl
@[simp] theorem writeByte_config (a : Addr) (b : Byte) : (s.writeByte a b).config = s.config := rfl

/-! ### setI -/

@[simp] theorem setI_v (w : Word) : (s.setI w).v = s.v := rfl
@[simp] theorem setI_i (w : Word) : (s.setI w).i = w := rfl
@[simp] theorem setI_pc (w : Word) : (s.setI w).pc = s.pc := rfl
@[simp] theorem setI_stack (w : Word) : (s.setI w).stack = s.stack := rfl
@[simp] theorem setI_dt (w : Word) : (s.setI w).dt = s.dt := rfl
@[simp] theorem setI_st (w : Word) : (s.setI w).st = s.st := rfl
@[simp] theorem setI_mem (w : Word) : (s.setI w).mem = s.mem := rfl
@[simp] theorem setI_disp (w : Word) : (s.setI w).disp = s.disp := rfl
@[simp] theorem setI_keys (w : Word) : (s.setI w).keys = s.keys := rfl
@[simp] theorem setI_wait (w : Word) : (s.setI w).wait = s.wait := rfl
@[simp] theorem setI_draws (w : Word) : (s.setI w).draws = s.draws := rfl
@[simp] theorem setI_config (w : Word) : (s.setI w).config = s.config := rfl

/-! ### setPC -/

@[simp] theorem setPC_v (w : Word) : (s.setPC w).v = s.v := rfl
@[simp] theorem setPC_i (w : Word) : (s.setPC w).i = s.i := rfl
@[simp] theorem setPC_pc (w : Word) : (s.setPC w).pc = w := rfl
@[simp] theorem setPC_stack (w : Word) : (s.setPC w).stack = s.stack := rfl
@[simp] theorem setPC_dt (w : Word) : (s.setPC w).dt = s.dt := rfl
@[simp] theorem setPC_st (w : Word) : (s.setPC w).st = s.st := rfl
@[simp] theorem setPC_mem (w : Word) : (s.setPC w).mem = s.mem := rfl
@[simp] theorem setPC_disp (w : Word) : (s.setPC w).disp = s.disp := rfl
@[simp] theorem setPC_keys (w : Word) : (s.setPC w).keys = s.keys := rfl
@[simp] theorem setPC_wait (w : Word) : (s.setPC w).wait = s.wait := rfl
@[simp] theorem setPC_draws (w : Word) : (s.setPC w).draws = s.draws := rfl
@[simp] theorem setPC_config (w : Word) : (s.setPC w).config = s.config := rfl

/-! ### setDT -/

@[simp] theorem setDT_v (b : Byte) : (s.setDT b).v = s.v := rfl
@[simp] theorem setDT_i (b : Byte) : (s.setDT b).i = s.i := rfl
@[simp] theorem setDT_pc (b : Byte) : (s.setDT b).pc = s.pc := rfl
@[simp] theorem setDT_stack (b : Byte) : (s.setDT b).stack = s.stack := rfl
@[simp] theorem setDT_dt (b : Byte) : (s.setDT b).dt = b := rfl
@[simp] theorem setDT_st (b : Byte) : (s.setDT b).st = s.st := rfl
@[simp] theorem setDT_mem (b : Byte) : (s.setDT b).mem = s.mem := rfl
@[simp] theorem setDT_disp (b : Byte) : (s.setDT b).disp = s.disp := rfl
@[simp] theorem setDT_keys (b : Byte) : (s.setDT b).keys = s.keys := rfl
@[simp] theorem setDT_wait (b : Byte) : (s.setDT b).wait = s.wait := rfl
@[simp] theorem setDT_draws (b : Byte) : (s.setDT b).draws = s.draws := rfl
@[simp] theorem setDT_config (b : Byte) : (s.setDT b).config = s.config := rfl

/-! ### setST -/

@[simp] theorem setST_v (b : Byte) : (s.setST b).v = s.v := rfl
@[simp] theorem setST_i (b : Byte) : (s.setST b).i = s.i := rfl
@[simp] theorem setST_pc (b : Byte) : (s.setST b).pc = s.pc := rfl
@[simp] theorem setST_stack (b : Byte) : (s.setST b).stack = s.stack := rfl
@[simp] theorem setST_dt (b : Byte) : (s.setST b).dt = s.dt := rfl
@[simp] theorem setST_st (b : Byte) : (s.setST b).st = b := rfl
@[simp] theorem setST_mem (b : Byte) : (s.setST b).mem = s.mem := rfl
@[simp] theorem setST_disp (b : Byte) : (s.setST b).disp = s.disp := rfl
@[simp] theorem setST_keys (b : Byte) : (s.setST b).keys = s.keys := rfl
@[simp] theorem setST_wait (b : Byte) : (s.setST b).wait = s.wait := rfl
@[simp] theorem setST_draws (b : Byte) : (s.setST b).draws = s.draws := rfl
@[simp] theorem setST_config (b : Byte) : (s.setST b).config = s.config := rfl

/-! ### setDisp -/

@[simp] theorem setDisp_v (d : Display) : (s.setDisp d).v = s.v := rfl
@[simp] theorem setDisp_i (d : Display) : (s.setDisp d).i = s.i := rfl
@[simp] theorem setDisp_pc (d : Display) : (s.setDisp d).pc = s.pc := rfl
@[simp] theorem setDisp_stack (d : Display) : (s.setDisp d).stack = s.stack := rfl
@[simp] theorem setDisp_dt (d : Display) : (s.setDisp d).dt = s.dt := rfl
@[simp] theorem setDisp_st (d : Display) : (s.setDisp d).st = s.st := rfl
@[simp] theorem setDisp_mem (d : Display) : (s.setDisp d).mem = s.mem := rfl
@[simp] theorem setDisp_disp (d : Display) : (s.setDisp d).disp = d := rfl
@[simp] theorem setDisp_keys (d : Display) : (s.setDisp d).keys = s.keys := rfl
@[simp] theorem setDisp_wait (d : Display) : (s.setDisp d).wait = s.wait := rfl
@[simp] theorem setDisp_draws (d : Display) : (s.setDisp d).draws = s.draws := rfl
@[simp] theorem setDisp_config (d : Display) : (s.setDisp d).config = s.config := rfl

/-! ### setWait -/

@[simp] theorem setWait_v (w : Option KeyWait) : (s.setWait w).v = s.v := rfl
@[simp] theorem setWait_i (w : Option KeyWait) : (s.setWait w).i = s.i := rfl
@[simp] theorem setWait_pc (w : Option KeyWait) : (s.setWait w).pc = s.pc := rfl
@[simp] theorem setWait_stack (w : Option KeyWait) : (s.setWait w).stack = s.stack := rfl
@[simp] theorem setWait_dt (w : Option KeyWait) : (s.setWait w).dt = s.dt := rfl
@[simp] theorem setWait_st (w : Option KeyWait) : (s.setWait w).st = s.st := rfl
@[simp] theorem setWait_mem (w : Option KeyWait) : (s.setWait w).mem = s.mem := rfl
@[simp] theorem setWait_disp (w : Option KeyWait) : (s.setWait w).disp = s.disp := rfl
@[simp] theorem setWait_keys (w : Option KeyWait) : (s.setWait w).keys = s.keys := rfl
@[simp] theorem setWait_wait (w : Option KeyWait) : (s.setWait w).wait = w := rfl
@[simp] theorem setWait_draws (w : Option KeyWait) : (s.setWait w).draws = s.draws := rfl
@[simp] theorem setWait_config (w : Option KeyWait) : (s.setWait w).config = s.config := rfl

/-! ### countDraw -/

@[simp] theorem countDraw_v : (s.countDraw).v = s.v := rfl
@[simp] theorem countDraw_i : (s.countDraw).i = s.i := rfl
@[simp] theorem countDraw_pc : (s.countDraw).pc = s.pc := rfl
@[simp] theorem countDraw_stack : (s.countDraw).stack = s.stack := rfl
@[simp] theorem countDraw_dt : (s.countDraw).dt = s.dt := rfl
@[simp] theorem countDraw_st : (s.countDraw).st = s.st := rfl
@[simp] theorem countDraw_mem : (s.countDraw).mem = s.mem := rfl
@[simp] theorem countDraw_disp : (s.countDraw).disp = s.disp := rfl
@[simp] theorem countDraw_keys : (s.countDraw).keys = s.keys := rfl
@[simp] theorem countDraw_wait : (s.countDraw).wait = s.wait := rfl
@[simp] theorem countDraw_draws : (s.countDraw).draws = s.draws + 1 := rfl
@[simp] theorem countDraw_config : (s.countDraw).config = s.config := rfl

/-! ### advance -/

@[simp] theorem advance_v : (s.advance).v = s.v := rfl
@[simp] theorem advance_i : (s.advance).i = s.i := rfl
@[simp] theorem advance_pc : (s.advance).pc = s.pc + 2 := rfl
@[simp] theorem advance_stack : (s.advance).stack = s.stack := rfl
@[simp] theorem advance_dt : (s.advance).dt = s.dt := rfl
@[simp] theorem advance_st : (s.advance).st = s.st := rfl
@[simp] theorem advance_mem : (s.advance).mem = s.mem := rfl
@[simp] theorem advance_disp : (s.advance).disp = s.disp := rfl
@[simp] theorem advance_keys : (s.advance).keys = s.keys := rfl
@[simp] theorem advance_wait : (s.advance).wait = s.wait := rfl
@[simp] theorem advance_draws : (s.advance).draws = s.draws := rfl
@[simp] theorem advance_config : (s.advance).config = s.config := rfl

/-! ### skipIf -/

@[simp] theorem skipIf_v (c : Bool) : (s.skipIf c).v = s.v := rfl
@[simp] theorem skipIf_i (c : Bool) : (s.skipIf c).i = s.i := rfl
@[simp] theorem skipIf_pc (c : Bool) : (s.skipIf c).pc = if c then s.pc + 4 else s.pc + 2 := rfl
@[simp] theorem skipIf_stack (c : Bool) : (s.skipIf c).stack = s.stack := rfl
@[simp] theorem skipIf_dt (c : Bool) : (s.skipIf c).dt = s.dt := rfl
@[simp] theorem skipIf_st (c : Bool) : (s.skipIf c).st = s.st := rfl
@[simp] theorem skipIf_mem (c : Bool) : (s.skipIf c).mem = s.mem := rfl
@[simp] theorem skipIf_disp (c : Bool) : (s.skipIf c).disp = s.disp := rfl
@[simp] theorem skipIf_keys (c : Bool) : (s.skipIf c).keys = s.keys := rfl
@[simp] theorem skipIf_wait (c : Bool) : (s.skipIf c).wait = s.wait := rfl
@[simp] theorem skipIf_draws (c : Bool) : (s.skipIf c).draws = s.draws := rfl
@[simp] theorem skipIf_config (c : Bool) : (s.skipIf c).config = s.config := rfl

/-! ### writeData -/

@[simp] theorem writeData_v (k : Nat) (b : Byte) : (s.writeData k b).v = s.v := rfl
@[simp] theorem writeData_i (k : Nat) (b : Byte) : (s.writeData k b).i = s.i := rfl
@[simp] theorem writeData_pc (k : Nat) (b : Byte) : (s.writeData k b).pc = s.pc := rfl
@[simp] theorem writeData_stack (k : Nat) (b : Byte) : (s.writeData k b).stack = s.stack := rfl
@[simp] theorem writeData_dt (k : Nat) (b : Byte) : (s.writeData k b).dt = s.dt := rfl
@[simp] theorem writeData_st (k : Nat) (b : Byte) : (s.writeData k b).st = s.st := rfl
@[simp] theorem writeData_mem (k : Nat) (b : Byte) : (s.writeData k b).mem = Memory.write (resetByte s.config) (s.dataAddr k).toNat b s.mem := rfl
@[simp] theorem writeData_disp (k : Nat) (b : Byte) : (s.writeData k b).disp = s.disp := rfl
@[simp] theorem writeData_keys (k : Nat) (b : Byte) : (s.writeData k b).keys = s.keys := rfl
@[simp] theorem writeData_wait (k : Nat) (b : Byte) : (s.writeData k b).wait = s.wait := rfl
@[simp] theorem writeData_draws (k : Nat) (b : Byte) : (s.writeData k b).draws = s.draws := rfl
@[simp] theorem writeData_config (k : Nat) (b : Byte) : (s.writeData k b).config = s.config := rfl

/-! ### writeResultFlag -/

@[simp] theorem writeResultFlag_v (x : RegIdx) (b f : Byte) : (s.writeResultFlag x b f).v = (s.v.set x.val b).set VF.val f := rfl
@[simp] theorem writeResultFlag_i (x : RegIdx) (b f : Byte) : (s.writeResultFlag x b f).i = s.i := rfl
@[simp] theorem writeResultFlag_pc (x : RegIdx) (b f : Byte) : (s.writeResultFlag x b f).pc = s.pc := rfl
@[simp] theorem writeResultFlag_stack (x : RegIdx) (b f : Byte) : (s.writeResultFlag x b f).stack = s.stack := rfl
@[simp] theorem writeResultFlag_dt (x : RegIdx) (b f : Byte) : (s.writeResultFlag x b f).dt = s.dt := rfl
@[simp] theorem writeResultFlag_st (x : RegIdx) (b f : Byte) : (s.writeResultFlag x b f).st = s.st := rfl
@[simp] theorem writeResultFlag_mem (x : RegIdx) (b f : Byte) : (s.writeResultFlag x b f).mem = s.mem := rfl
@[simp] theorem writeResultFlag_disp (x : RegIdx) (b f : Byte) : (s.writeResultFlag x b f).disp = s.disp := rfl
@[simp] theorem writeResultFlag_keys (x : RegIdx) (b f : Byte) : (s.writeResultFlag x b f).keys = s.keys := rfl
@[simp] theorem writeResultFlag_wait (x : RegIdx) (b f : Byte) : (s.writeResultFlag x b f).wait = s.wait := rfl
@[simp] theorem writeResultFlag_draws (x : RegIdx) (b f : Byte) : (s.writeResultFlag x b f).draws = s.draws := rfl
@[simp] theorem writeResultFlag_config (x : RegIdx) (b f : Byte) : (s.writeResultFlag x b f).config = s.config := rfl

/-! ### setKey -/

@[simp] theorem setKey_v (k : KeyIdx) (p : Bool) : (s.setKey k p).v = s.v := rfl
@[simp] theorem setKey_i (k : KeyIdx) (p : Bool) : (s.setKey k p).i = s.i := rfl
@[simp] theorem setKey_pc (k : KeyIdx) (p : Bool) : (s.setKey k p).pc = s.pc := rfl
@[simp] theorem setKey_stack (k : KeyIdx) (p : Bool) : (s.setKey k p).stack = s.stack := rfl
@[simp] theorem setKey_dt (k : KeyIdx) (p : Bool) : (s.setKey k p).dt = s.dt := rfl
@[simp] theorem setKey_st (k : KeyIdx) (p : Bool) : (s.setKey k p).st = s.st := rfl
@[simp] theorem setKey_mem (k : KeyIdx) (p : Bool) : (s.setKey k p).mem = s.mem := rfl
@[simp] theorem setKey_disp (k : KeyIdx) (p : Bool) : (s.setKey k p).disp = s.disp := rfl
@[simp] theorem setKey_keys (k : KeyIdx) (p : Bool) : (s.setKey k p).keys = s.keys.set k.val p := rfl
@[simp] theorem setKey_wait (k : KeyIdx) (p : Bool) : (s.setKey k p).wait = s.wait := rfl
@[simp] theorem setKey_draws (k : KeyIdx) (p : Bool) : (s.setKey k p).draws = s.draws := rfl
@[simp] theorem setKey_config (k : KeyIdx) (p : Bool) : (s.setKey k p).config = s.config := rfl

/-! ### tick -/

@[simp] theorem tick_v : (s.tick).v = s.v := rfl
@[simp] theorem tick_i : (s.tick).i = s.i := rfl
@[simp] theorem tick_pc : (s.tick).pc = s.pc := rfl
@[simp] theorem tick_stack : (s.tick).stack = s.stack := rfl
@[simp] theorem tick_dt : (s.tick).dt = countDown s.dt := rfl
@[simp] theorem tick_st : (s.tick).st = countDown s.st := rfl
@[simp] theorem tick_mem : (s.tick).mem = s.mem := rfl
@[simp] theorem tick_disp : (s.tick).disp = s.disp := rfl
@[simp] theorem tick_keys : (s.tick).keys = s.keys := rfl
@[simp] theorem tick_wait : (s.tick).wait = s.wait := rfl
@[simp] theorem tick_draws : (s.tick).draws = s.draws := rfl
@[simp] theorem tick_config : (s.tick).config = s.config := rfl

end Sys2Proof.Machine
end

