-- ==== Sys2Proof/Laws/Ops.lean ====
section
/-! SUPPORT. What the named reads of State answer after each named update: registers, memory bytes, pixels, keys and the
data address; then the block operations and the stack. -/

namespace Sys2Proof.Machine

/-! ### Reads that an update does not touch -/

section
variable (s : State)

@[simp] theorem readV_writeByte (a : Addr) (b : Byte) (r : RegIdx) : (s.writeByte a b).readV r = s.readV r := rfl
@[simp] theorem readV_setI (w : Word) (r : RegIdx) : (s.setI w).readV r = s.readV r := rfl
@[simp] theorem readV_setPC (w : Word) (r : RegIdx) : (s.setPC w).readV r = s.readV r := rfl
@[simp] theorem readV_setDT (b : Byte) (r : RegIdx) : (s.setDT b).readV r = s.readV r := rfl
@[simp] theorem readV_setST (b : Byte) (r : RegIdx) : (s.setST b).readV r = s.readV r := rfl
@[simp] theorem readV_setDisp (d : Display) (r : RegIdx) : (s.setDisp d).readV r = s.readV r := rfl
@[simp] theorem readV_setWait (w : Option KeyWait) (r : RegIdx) : (s.setWait w).readV r = s.readV r := rfl
@[simp] theorem readV_countDraw (r : RegIdx) : (s.countDraw).readV r = s.readV r := rfl
@[simp] theorem readV_advance (r : RegIdx) : (s.advance).readV r = s.readV r := rfl
@[simp] theorem readV_skipIf (c : Bool) (r : RegIdx) : (s.skipIf c).readV r = s.readV r := rfl
@[simp] theorem readV_writeData (k : Nat) (b : Byte) (r : RegIdx) : (s.writeData k b).readV r = s.readV r := rfl
@[simp] theorem readV_setKey (k : KeyIdx) (p : Bool) (r : RegIdx) : (s.setKey k p).readV r = s.readV r := rfl
@[simp] theorem readV_tick (r : RegIdx) : (s.tick).readV r = s.readV r := rfl
@[simp] theorem readByte_writeV (x : RegIdx) (b : Byte) (a' : Addr) : (s.writeV x b).readByte a' = s.readByte a' := rfl
@[simp] theorem readByte_setI (w : Word) (a' : Addr) : (s.setI w).readByte a' = s.readByte a' := rfl
@[simp] theorem readByte_setPC (w : Word) (a' : Addr) : (s.setPC w).readByte a' = s.readByte a' := rfl
@[simp] theorem readByte_setDT (b : Byte) (a' : Addr) : (s.setDT b).readByte a' = s.readByte a' := rfl
@[simp] theorem readByte_setST (b : Byte) (a' : Addr) : (s.setST b).readByte a' = s.readByte a' := rfl
@[simp] theorem readByte_setDisp (d : Display) (a' : Addr) : (s.setDisp d).readByte a' = s.readByte a' := rfl
@[simp] theorem readByte_setWait (w : Option KeyWait) (a' : Addr) : (s.setWait w).readByte a' = s.readByte a' := rfl
@[simp] theorem readByte_countDraw (a' : Addr) : (s.countDraw).readByte a' = s.readByte a' := rfl
@[simp] theorem readByte_advance (a' : Addr) : (s.advance).readByte a' = s.readByte a' := rfl
@[simp] theorem readByte_skipIf (c : Bool) (a' : Addr) : (s.skipIf c).readByte a' = s.readByte a' := rfl
@[simp] theorem readByte_writeResultFlag (x : RegIdx) (b f : Byte) (a' : Addr) : (s.writeResultFlag x b f).readByte a' = s.readByte a' := rfl
@[simp] theorem readByte_setKey (k : KeyIdx) (p : Bool) (a' : Addr) : (s.setKey k p).readByte a' = s.readByte a' := rfl
@[simp] theorem readByte_tick (a' : Addr) : (s.tick).readByte a' = s.readByte a' := rfl
@[simp] theorem pixel_writeV (x : RegIdx) (b : Byte) (row : Fin displayH) (col : Fin displayW) : (s.writeV x b).pixel row col = s.pixel row col := rfl
@[simp] theorem pixel_writeByte (a : Addr) (b : Byte) (row : Fin displayH) (col : Fin displayW) : (s.writeByte a b).pixel row col = s.pixel row col := rfl
@[simp] theorem pixel_setI (w : Word) (row : Fin displayH) (col : Fin displayW) : (s.setI w).pixel row col = s.pixel row col := rfl
@[simp] theorem pixel_setPC (w : Word) (row : Fin displayH) (col : Fin displayW) : (s.setPC w).pixel row col = s.pixel row col := rfl
@[simp] theorem pixel_setDT (b : Byte) (row : Fin displayH) (col : Fin displayW) : (s.setDT b).pixel row col = s.pixel row col := rfl
@[simp] theorem pixel_setST (b : Byte) (row : Fin displayH) (col : Fin displayW) : (s.setST b).pixel row col = s.pixel row col := rfl
@[simp] theorem pixel_setWait (w : Option KeyWait) (row : Fin displayH) (col : Fin displayW) : (s.setWait w).pixel row col = s.pixel row col := rfl
@[simp] theorem pixel_countDraw (row : Fin displayH) (col : Fin displayW) : (s.countDraw).pixel row col = s.pixel row col := rfl
@[simp] theorem pixel_advance (row : Fin displayH) (col : Fin displayW) : (s.advance).pixel row col = s.pixel row col := rfl
@[simp] theorem pixel_skipIf (c : Bool) (row : Fin displayH) (col : Fin displayW) : (s.skipIf c).pixel row col = s.pixel row col := rfl
@[simp] theorem pixel_writeData (k : Nat) (b : Byte) (row : Fin displayH) (col : Fin displayW) : (s.writeData k b).pixel row col = s.pixel row col := rfl
@[simp] theorem pixel_writeResultFlag (x : RegIdx) (b f : Byte) (row : Fin displayH) (col : Fin displayW) : (s.writeResultFlag x b f).pixel row col = s.pixel row col := rfl
@[simp] theorem pixel_setKey (k : KeyIdx) (p : Bool) (row : Fin displayH) (col : Fin displayW) : (s.setKey k p).pixel row col = s.pixel row col := rfl
@[simp] theorem pixel_tick (row : Fin displayH) (col : Fin displayW) : (s.tick).pixel row col = s.pixel row col := rfl
@[simp] theorem key_writeV (x : RegIdx) (b : Byte) (k' : KeyIdx) : (s.writeV x b).key k' = s.key k' := rfl
@[simp] theorem key_writeByte (a : Addr) (b : Byte) (k' : KeyIdx) : (s.writeByte a b).key k' = s.key k' := rfl
@[simp] theorem key_setI (w : Word) (k' : KeyIdx) : (s.setI w).key k' = s.key k' := rfl
@[simp] theorem key_setPC (w : Word) (k' : KeyIdx) : (s.setPC w).key k' = s.key k' := rfl
@[simp] theorem key_setDT (b : Byte) (k' : KeyIdx) : (s.setDT b).key k' = s.key k' := rfl
@[simp] theorem key_setST (b : Byte) (k' : KeyIdx) : (s.setST b).key k' = s.key k' := rfl
@[simp] theorem key_setDisp (d : Display) (k' : KeyIdx) : (s.setDisp d).key k' = s.key k' := rfl
@[simp] theorem key_setWait (w : Option KeyWait) (k' : KeyIdx) : (s.setWait w).key k' = s.key k' := rfl
@[simp] theorem key_countDraw (k' : KeyIdx) : (s.countDraw).key k' = s.key k' := rfl
@[simp] theorem key_advance (k' : KeyIdx) : (s.advance).key k' = s.key k' := rfl
@[simp] theorem key_skipIf (c : Bool) (k' : KeyIdx) : (s.skipIf c).key k' = s.key k' := rfl
@[simp] theorem key_writeData (k : Nat) (b : Byte) (k' : KeyIdx) : (s.writeData k b).key k' = s.key k' := rfl
@[simp] theorem key_writeResultFlag (x : RegIdx) (b f : Byte) (k' : KeyIdx) : (s.writeResultFlag x b f).key k' = s.key k' := rfl
@[simp] theorem key_tick (k' : KeyIdx) : (s.tick).key k' = s.key k' := rfl
@[simp] theorem dataAddr_writeV (x : RegIdx) (b : Byte) (n : Nat) : (s.writeV x b).dataAddr n = s.dataAddr n := rfl
@[simp] theorem dataAddr_writeByte (a : Addr) (b : Byte) (n : Nat) : (s.writeByte a b).dataAddr n = s.dataAddr n := rfl
@[simp] theorem dataAddr_setPC (w : Word) (n : Nat) : (s.setPC w).dataAddr n = s.dataAddr n := rfl
@[simp] theorem dataAddr_setDT (b : Byte) (n : Nat) : (s.setDT b).dataAddr n = s.dataAddr n := rfl
@[simp] theorem dataAddr_setST (b : Byte) (n : Nat) : (s.setST b).dataAddr n = s.dataAddr n := rfl
@[simp] theorem dataAddr_setDisp (d : Display) (n : Nat) : (s.setDisp d).dataAddr n = s.dataAddr n := rfl
@[simp] theorem dataAddr_setWait (w : Option KeyWait) (n : Nat) : (s.setWait w).dataAddr n = s.dataAddr n := rfl
@[simp] theorem dataAddr_countDraw (n : Nat) : (s.countDraw).dataAddr n = s.dataAddr n := rfl
@[simp] theorem dataAddr_advance (n : Nat) : (s.advance).dataAddr n = s.dataAddr n := rfl
@[simp] theorem dataAddr_skipIf (c : Bool) (n : Nat) : (s.skipIf c).dataAddr n = s.dataAddr n := rfl
@[simp] theorem dataAddr_writeData (k : Nat) (b : Byte) (n : Nat) : (s.writeData k b).dataAddr n = s.dataAddr n := rfl
@[simp] theorem dataAddr_writeResultFlag (x : RegIdx) (b f : Byte) (n : Nat) : (s.writeResultFlag x b f).dataAddr n = s.dataAddr n := rfl
@[simp] theorem dataAddr_setKey (k : KeyIdx) (p : Bool) (n : Nat) : (s.setKey k p).dataAddr n = s.dataAddr n := rfl
@[simp] theorem dataAddr_tick (n : Nat) : (s.tick).dataAddr n = s.dataAddr n := rfl

end

/-! ### Read after write -/

@[simp] theorem readV_writeV (s : State) (x r : RegIdx) (b : Byte) :
    (s.writeV x b).readV r = if r = x then b else s.readV r := by
  by_cases h : r = x
  · subst h
    simp [State.readV, State.writeV]
  · have : x.val ≠ r.val := fun e => h (Fin.ext e.symm)
    simp [State.readV, State.writeV, Vector.getElem_set_ne, h, this]

@[simp] theorem readV_writeResultFlag (s : State) (x r : RegIdx) (b f : Byte) :
    (s.writeResultFlag x b f).readV r = if r = VF then f else if r = x then b else s.readV r := by
  simp [State.writeResultFlag]

@[simp] theorem readByte_writeByte (s : State) (a a' : Addr) (b : Byte) :
    (s.writeByte a b).readByte a' = if a' = a then b else s.readByte a' := by
  have := Memory.read_write (resetByte s.config) s.mem a.toNat a'.toNat b
  simpa [State.readByte, BitVec.toNat_inj] using this

@[simp] theorem readByte_writeData (s : State) (k : Nat) (a' : Addr) (b : Byte) :
    (s.writeData k b).readByte a' = if a' = s.dataAddr k then b else s.readByte a' :=
  readByte_writeByte s (s.dataAddr k) a' b

@[simp] theorem pixel_setDisp (s : State) (d : Display) (row : Fin displayH) (col : Fin displayW) :
    (s.setDisp d).pixel row col = d.pixel row col := rfl

@[simp] theorem key_setKey (s : State) (k k' : KeyIdx) (p : Bool) :
    (s.setKey k p).key k' = if k' = k then p else s.key k' := by
  by_cases h : k' = k
  · subst h
    simp [State.key]
  · have : k.val ≠ k'.val := fun e => h (Fin.ext e.symm)
    simp [State.key, h, this]

/-! ### Data addresses (R65) -/

/-- The bytes of one block have different addresses, however the block wraps. -/
theorem dataAddr_inj (s : State) {j k : Nat} (hj : j < 4096) (hk : k < 4096) (h : s.dataAddr j = s.dataAddr k) :
    j = k := by
  have := congrArg BitVec.toNat h
  simp [State.dataAddr, BitVec.toNat_ofNat] at this
  omega

/-! ### Register blocks (R185, R186) -/

theorem mem_regsUpTo (x r : RegIdx) : r ∈ regsUpTo x ↔ r ≤ x := by
  revert x r
  decide

theorem regsUpTo_nodup (x : RegIdx) : (regsUpTo x).Nodup := by
  revert x
  decide

/-- A block store changes memory and nothing else. -/
theorem storeBlock_eq (ks : List RegIdx) (s : State) : s.storeBlock ks = { s with mem := (s.storeBlock ks).mem } := by
  induction ks generalizing s with
  | nil => rfl
  | cons k ks ih =>
    rw [State.storeBlock, ih]
    rfl

theorem storeBlock_readByte_other (ks : List RegIdx) (s : State) (a : Addr) (h : ∀ k ∈ ks, a ≠ s.dataAddr k.val) :
    (s.storeBlock ks).readByte a = s.readByte a := by
  induction ks generalizing s with
  | nil => rfl
  | cons k ks ih =>
    rw [State.storeBlock, ih (s.writeData k.val (s.readV k)) fun j hj => h j (by simp [hj])]
    simp [h k (by simp)]

theorem storeBlock_readByte_stored (ks : List RegIdx) (s : State) (hn : ks.Nodup) (k : RegIdx) (hk : k ∈ ks) :
    (s.storeBlock ks).readByte (s.dataAddr k.val) = s.readV k := by
  induction ks generalizing s with
  | nil => simp at hk
  | cons j js ih =>
    obtain ⟨hj, hjs⟩ := List.nodup_cons.mp hn
    rw [State.storeBlock]
    rcases List.mem_cons.mp hk with rfl | hk
    · rw [storeBlock_readByte_other]
      · simp
      · intro i hi heq
        have := dataAddr_inj s (by omega) (by omega) heq
        exact hj ((Fin.ext this : k = i) ▸ hi)
    · simpa using ih (s.writeData j.val (s.readV j)) hjs hk

/-- A block load changes general registers and nothing else. -/
theorem loadBlock_eq (ks : List RegIdx) (s : State) : s.loadBlock ks = { s with v := (s.loadBlock ks).v } := by
  induction ks generalizing s with
  | nil => rfl
  | cons k ks ih =>
    rw [State.loadBlock, ih]
    rfl

theorem loadBlock_readV (ks : List RegIdx) (s : State) (r : RegIdx) :
    (s.loadBlock ks).readV r = if r ∈ ks then s.readData r.val else s.readV r := by
  induction ks generalizing s with
  | nil => simp [State.loadBlock]
  | cons k ks ih =>
    rw [State.loadBlock, ih]
    by_cases hr : r = k <;> by_cases hm : r ∈ ks <;> simp [hr, hm, State.readData]

/-! ### Byte strings (the ROM loader, R296) -/

/-- Writing a byte string changes memory and nothing else. -/
theorem writeBytes_eq (bs : List Byte) (s : State) (a : Nat) :
    s.writeBytes a bs = { s with mem := (s.writeBytes a bs).mem } := by
  induction bs generalizing s a with
  | nil => rfl
  | cons b bs ih =>
    rw [State.writeBytes, ih]
    rfl

theorem writeBytes_readByte_other (bs : List Byte) (s : State) (a : Nat) (x : Addr) (ha : a + bs.length ≤ 4096)
    (h : x.toNat < a ∨ a + bs.length ≤ x.toNat) : (s.writeBytes a bs).readByte x = s.readByte x := by
  induction bs generalizing s a with
  | nil => rfl
  | cons b bs ih =>
    simp only [List.length_cons] at ha h
    have hx : x ≠ BitVec.ofNat 12 a := by
      rintro rfl
      simp only [BitVec.toNat_ofNat] at h
      omega
    rw [State.writeBytes, ih _ _ (by omega) (by omega)]
    simp [hx]

theorem writeBytes_readByte_stored (bs : List Byte) (s : State) (a : Nat) (ha : a + bs.length ≤ 4096) (j : Nat)
    (hj : j < bs.length) : (s.writeBytes a bs).readByte (BitVec.ofNat 12 (a + j)) = bs[j] := by
  induction bs generalizing s a j with
  | nil => simp at hj
  | cons b bs ih =>
    simp only [List.length_cons] at ha hj
    rw [State.writeBytes]
    cases j with
    | zero =>
      have ho := writeBytes_readByte_other bs (s.writeByte (BitVec.ofNat 12 a) b) (a + 1) (BitVec.ofNat 12 a) (by omega)
        (by simp only [BitVec.toNat_ofNat]; omega)
      simp [ho]
    | succ j =>
      have := ih (s.writeByte (BitVec.ofNat 12 a) b) (a + 1) (by omega) j (by omega)
      simpa [Nat.add_assoc, Nat.add_comm 1 j] using this

/-! ### The operations that a parameter switches, and the blocks, field by field -/

@[simp] theorem logicReset_i (s : State) : (s.logicReset).i = s.i := by
  unfold State.logicReset; split <;> rfl

@[simp] theorem logicReset_pc (s : State) : (s.logicReset).pc = s.pc := by
  unfold State.logicReset; split <;> rfl

@[simp] theorem logicReset_stack (s : State) : (s.logicReset).stack = s.stack := by
  unfold State.logicReset; split <;> rfl

@[simp] theorem logicReset_dt (s : State) : (s.logicReset).dt = s.dt := by
  unfold State.logicReset; split <;> rfl

@[simp] theorem logicReset_st (s : State) : (s.logicReset).st = s.st := by
  unfold State.logicReset; split <;> rfl

@[simp] theorem logicReset_mem (s : State) : (s.logicReset).mem = s.mem := by
  unfold State.logicReset; split <;> rfl

@[simp] theorem logicReset_disp (s : State) : (s.logicReset).disp = s.disp := by
  unfold State.logicReset; split <;> rfl

@[simp] theorem logicReset_keys (s : State) : (s.logicReset).keys = s.keys := by
  unfold State.logicReset; split <;> rfl

@[simp] theorem logicReset_wait (s : State) : (s.logicReset).wait = s.wait := by
  unfold State.logicReset; split <;> rfl

@[simp] theorem logicReset_draws (s : State) : (s.logicReset).draws = s.draws := by
  unfold State.logicReset; split <;> rfl

@[simp] theorem logicReset_config (s : State) : (s.logicReset).config = s.config := by
  unfold State.logicReset; split <;> rfl

@[simp] theorem logicReset_readV (s : State) (r : RegIdx) :
    s.logicReset.readV r = if s.config.logicResetsVF = true ∧ r = VF then 0 else s.readV r := by
  by_cases h : s.config.logicResetsVF = true <;> simp [State.logicReset, h]

@[simp] theorem blockIncrement_v (s : State) (x : RegIdx) : (s.blockIncrement x).v = s.v := by
  unfold State.blockIncrement; split <;> rfl

@[simp] theorem blockIncrement_pc (s : State) (x : RegIdx) : (s.blockIncrement x).pc = s.pc := by
  unfold State.blockIncrement; split <;> rfl

@[simp] theorem blockIncrement_stack (s : State) (x : RegIdx) : (s.blockIncrement x).stack = s.stack := by
  unfold State.blockIncrement; split <;> rfl

@[simp] theorem blockIncrement_dt (s : State) (x : RegIdx) : (s.blockIncrement x).dt = s.dt := by
  unfold State.blockIncrement; split <;> rfl

@[simp] theorem blockIncrement_st (s : State) (x : RegIdx) : (s.blockIncrement x).st = s.st := by
  unfold State.blockIncrement; split <;> rfl

@[simp] theorem blockIncrement_mem (s : State) (x : RegIdx) : (s.blockIncrement x).mem = s.mem := by
  unfold State.blockIncrement; split <;> rfl

@[simp] theorem blockIncrement_disp (s : State) (x : RegIdx) : (s.blockIncrement x).disp = s.disp := by
  unfold State.blockIncrement; split <;> rfl

@[simp] theorem blockIncrement_keys (s : State) (x : RegIdx) : (s.blockIncrement x).keys = s.keys := by
  unfold State.blockIncrement; split <;> rfl

@[simp] theorem blockIncrement_wait (s : State) (x : RegIdx) : (s.blockIncrement x).wait = s.wait := by
  unfold State.blockIncrement; split <;> rfl

@[simp] theorem blockIncrement_draws (s : State) (x : RegIdx) : (s.blockIncrement x).draws = s.draws := by
  unfold State.blockIncrement; split <;> rfl

@[simp] theorem blockIncrement_config (s : State) (x : RegIdx) : (s.blockIncrement x).config = s.config := by
  unfold State.blockIncrement; split <;> rfl

@[simp] theorem blockIncrement_i (s : State) (x : RegIdx) : (s.blockIncrement x).i =
    if s.config.loadStoreIncrementsI = true then s.i + BitVec.ofNat 16 (x.val + 1) else s.i := by
  by_cases h : s.config.loadStoreIncrementsI = true <;> simp [State.blockIncrement, h]

@[simp] theorem storeBlock_v (s : State) (ks : List RegIdx) : (s.storeBlock ks).v = s.v := by
  rw [storeBlock_eq]

@[simp] theorem storeBlock_i (s : State) (ks : List RegIdx) : (s.storeBlock ks).i = s.i := by
  rw [storeBlock_eq]

@[simp] theorem storeBlock_pc (s : State) (ks : List RegIdx) : (s.storeBlock ks).pc = s.pc := by
  rw [storeBlock_eq]

@[simp] theorem storeBlock_stack (s : State) (ks : List RegIdx) : (s.storeBlock ks).stack = s.stack := by
  rw [storeBlock_eq]

@[simp] theorem storeBlock_dt (s : State) (ks : List RegIdx) : (s.storeBlock ks).dt = s.dt := by
  rw [storeBlock_eq]

@[simp] theorem storeBlock_st (s : State) (ks : List RegIdx) : (s.storeBlock ks).st = s.st := by
  rw [storeBlock_eq]

@[simp] theorem storeBlock_disp (s : State) (ks : List RegIdx) : (s.storeBlock ks).disp = s.disp := by
  rw [storeBlock_eq]

@[simp] theorem storeBlock_keys (s : State) (ks : List RegIdx) : (s.storeBlock ks).keys = s.keys := by
  rw [storeBlock_eq]

@[simp] theorem storeBlock_wait (s : State) (ks : List RegIdx) : (s.storeBlock ks).wait = s.wait := by
  rw [storeBlock_eq]

@[simp] theorem storeBlock_draws (s : State) (ks : List RegIdx) : (s.storeBlock ks).draws = s.draws := by
  rw [storeBlock_eq]

@[simp] theorem storeBlock_config (s : State) (ks : List RegIdx) : (s.storeBlock ks).config = s.config := by
  rw [storeBlock_eq]

@[simp] theorem loadBlock_i (s : State) (ks : List RegIdx) : (s.loadBlock ks).i = s.i := by
  rw [loadBlock_eq]

@[simp] theorem loadBlock_pc (s : State) (ks : List RegIdx) : (s.loadBlock ks).pc = s.pc := by
  rw [loadBlock_eq]

@[simp] theorem loadBlock_stack (s : State) (ks : List RegIdx) : (s.loadBlock ks).stack = s.stack := by
  rw [loadBlock_eq]

@[simp] theorem loadBlock_dt (s : State) (ks : List RegIdx) : (s.loadBlock ks).dt = s.dt := by
  rw [loadBlock_eq]

@[simp] theorem loadBlock_st (s : State) (ks : List RegIdx) : (s.loadBlock ks).st = s.st := by
  rw [loadBlock_eq]

@[simp] theorem loadBlock_mem (s : State) (ks : List RegIdx) : (s.loadBlock ks).mem = s.mem := by
  rw [loadBlock_eq]

@[simp] theorem loadBlock_disp (s : State) (ks : List RegIdx) : (s.loadBlock ks).disp = s.disp := by
  rw [loadBlock_eq]

@[simp] theorem loadBlock_keys (s : State) (ks : List RegIdx) : (s.loadBlock ks).keys = s.keys := by
  rw [loadBlock_eq]

@[simp] theorem loadBlock_wait (s : State) (ks : List RegIdx) : (s.loadBlock ks).wait = s.wait := by
  rw [loadBlock_eq]

@[simp] theorem loadBlock_draws (s : State) (ks : List RegIdx) : (s.loadBlock ks).draws = s.draws := by
  rw [loadBlock_eq]

@[simp] theorem loadBlock_config (s : State) (ks : List RegIdx) : (s.loadBlock ks).config = s.config := by
  rw [loadBlock_eq]

@[simp] theorem writeBytes_v (s : State) (a : Nat) (bs : List Byte) : (s.writeBytes a bs).v = s.v := by
  rw [writeBytes_eq]

@[simp] theorem writeBytes_i (s : State) (a : Nat) (bs : List Byte) : (s.writeBytes a bs).i = s.i := by
  rw [writeBytes_eq]

@[simp] theorem writeBytes_pc (s : State) (a : Nat) (bs : List Byte) : (s.writeBytes a bs).pc = s.pc := by
  rw [writeBytes_eq]

@[simp] theorem writeBytes_stack (s : State) (a : Nat) (bs : List Byte) : (s.writeBytes a bs).stack = s.stack := by
  rw [writeBytes_eq]

@[simp] theorem writeBytes_dt (s : State) (a : Nat) (bs : List Byte) : (s.writeBytes a bs).dt = s.dt := by
  rw [writeBytes_eq]

@[simp] theorem writeBytes_st (s : State) (a : Nat) (bs : List Byte) : (s.writeBytes a bs).st = s.st := by
  rw [writeBytes_eq]

@[simp] theorem writeBytes_disp (s : State) (a : Nat) (bs : List Byte) : (s.writeBytes a bs).disp = s.disp := by
  rw [writeBytes_eq]

@[simp] theorem writeBytes_keys (s : State) (a : Nat) (bs : List Byte) : (s.writeBytes a bs).keys = s.keys := by
  rw [writeBytes_eq]

@[simp] theorem writeBytes_wait (s : State) (a : Nat) (bs : List Byte) : (s.writeBytes a bs).wait = s.wait := by
  rw [writeBytes_eq]

@[simp] theorem writeBytes_draws (s : State) (a : Nat) (bs : List Byte) : (s.writeBytes a bs).draws = s.draws := by
  rw [writeBytes_eq]

@[simp] theorem writeBytes_config (s : State) (a : Nat) (bs : List Byte) : (s.writeBytes a bs).config = s.config := by
  rw [writeBytes_eq]

/-- A read by register, byte, pixel or key depends on its field alone (a byte on the parameters too). -/
theorem readV_congr {s t : State} (h : t.v = s.v) (r : RegIdx) : t.readV r = s.readV r := by simp [State.readV, h]

theorem readByte_congr {s t : State} (hm : t.mem = s.mem) (hc : t.config = s.config) (a : Addr) :
    t.readByte a = s.readByte a := by simp [State.readByte, hm, hc]

theorem pixel_congr {s t : State} (h : t.disp = s.disp) (row : Fin displayH) (col : Fin displayW) :
    t.pixel row col = s.pixel row col := by simp [State.pixel, h]

@[simp] theorem logicReset_readByte (s : State) (a : Addr) : s.logicReset.readByte a = s.readByte a :=
  readByte_congr (by simp) (by simp) a

@[simp] theorem blockIncrement_readV (s : State) (x r : RegIdx) : (s.blockIncrement x).readV r = s.readV r :=
  readV_congr (by simp) r

@[simp] theorem blockIncrement_readByte (s : State) (x : RegIdx) (a : Addr) :
    (s.blockIncrement x).readByte a = s.readByte a := readByte_congr (by simp) (by simp) a

@[simp] theorem storeBlock_readV (s : State) (ks : List RegIdx) (r : RegIdx) : (s.storeBlock ks).readV r = s.readV r :=
  readV_congr (by simp) r

@[simp] theorem loadBlock_readByte (s : State) (ks : List RegIdx) (a : Addr) : (s.loadBlock ks).readByte a = s.readByte a :=
  readByte_congr (by simp) (by simp) a

@[simp] theorem writeBytes_readV (s : State) (a : Nat) (bs : List Byte) (r : RegIdx) :
    (s.writeBytes a bs).readV r = s.readV r := readV_congr (by simp) r

/-! ### Every memory operation keeps the canonical form -/

/-- The memory of `s` is canonical for the parameters of `s`. -/
abbrev State.memWf (s : State) : Prop := Memory.wf (resetByte s.config) s.mem

theorem writeByte_memWf {s : State} (h : s.memWf) (a : Addr) (b : Byte) : (s.writeByte a b).memWf :=
  Memory.write_wf a.isLt h

theorem writeData_memWf {s : State} (h : s.memWf) (k : Nat) (b : Byte) : (s.writeData k b).memWf :=
  writeByte_memWf h _ b

theorem storeBlock_memWf (ks : List RegIdx) {s : State} (h : s.memWf) : (s.storeBlock ks).memWf := by
  induction ks generalizing s with
  | nil => exact h
  | cons k ks ih => exact ih (writeData_memWf h _ _)

theorem writeBytes_memWf (bs : List Byte) {s : State} (h : s.memWf) (a : Nat) : (s.writeBytes a bs).memWf := by
  induction bs generalizing s a with
  | nil => exact h
  | cons b bs ih => exact ih (writeByte_memWf h _ b) (a + 1)

theorem resetWith_memWf (c : Config) : (State.resetWith c).memWf := ⟨List.Pairwise.nil, by simp [State.resetWith]⟩

/-! ### The call stack (R27, R28) -/

theorem push_eq_some {s : State} (h : s.stack.length < stackDepth) (w : Word) :
    s.push w = some { s with stack := s.stack ++ [w] } := by
  simp [State.push, Nat.not_le.mpr h]

theorem push_eq_none {s : State} (h : stackDepth ≤ s.stack.length) (w : Word) : s.push w = none := by
  simp [State.push, h]

theorem pop_eq_some {s : State} {rest : List Word} {w : Word} (h : s.stack = rest ++ [w]) :
    s.pop = some (w, { s with stack := rest }) := by
  simp [State.pop, h]

theorem pop_eq_none {s : State} (h : s.stack = []) : s.pop = none := by
  simp [State.pop, h]

end Sys2Proof.Machine
end

