-- ==== Sys2Proof/Laws/Commute.lean ====
section
/-! SUPPORT. The block operations and the VF reset neither read nor write the display or a timer: they commute with an
update of it. With these lemmas "no instruction but … reads DISP, DT or ST" (R205, R228) is one line an instruction. -/

namespace Sys2Proof.Machine

theorem storeBlock_setDisp (ks : List RegIdx) (s : State) (d : Display) :
    (s.setDisp d).storeBlock ks = (s.storeBlock ks).setDisp d := by
  induction ks generalizing s with
  | nil => rfl
  | cons k ks ih => exact ih (s.writeData k.val (s.readV k))

theorem loadBlock_setDisp (ks : List RegIdx) (s : State) (d : Display) :
    (s.setDisp d).loadBlock ks = (s.loadBlock ks).setDisp d := by
  induction ks generalizing s with
  | nil => rfl
  | cons k ks ih => exact ih (s.writeV k (s.readData k.val))

theorem blockIncrement_setDisp (s : State) (x : RegIdx) (d : Display) :
    (s.setDisp d).blockIncrement x = (s.blockIncrement x).setDisp d := by
  by_cases h : s.config.loadStoreIncrementsI = true
  · simp [State.blockIncrement, h]; rfl
  · simp [State.blockIncrement, h]

theorem logicReset_setDisp (s : State) (d : Display) : (s.setDisp d).logicReset = s.logicReset.setDisp d := by
  by_cases h : s.config.logicResetsVF = true
  · simp [State.logicReset, h]; rfl
  · simp [State.logicReset, h]

theorem storeBlock_setDT (ks : List RegIdx) (s : State) (b : Byte) :
    (s.setDT b).storeBlock ks = (s.storeBlock ks).setDT b := by
  induction ks generalizing s with
  | nil => rfl
  | cons k ks ih => exact ih (s.writeData k.val (s.readV k))

theorem loadBlock_setDT (ks : List RegIdx) (s : State) (b : Byte) :
    (s.setDT b).loadBlock ks = (s.loadBlock ks).setDT b := by
  induction ks generalizing s with
  | nil => rfl
  | cons k ks ih => exact ih (s.writeV k (s.readData k.val))

theorem blockIncrement_setDT (s : State) (x : RegIdx) (b : Byte) :
    (s.setDT b).blockIncrement x = (s.blockIncrement x).setDT b := by
  by_cases h : s.config.loadStoreIncrementsI = true
  · simp [State.blockIncrement, h]; rfl
  · simp [State.blockIncrement, h]

theorem logicReset_setDT (s : State) (b : Byte) : (s.setDT b).logicReset = s.logicReset.setDT b := by
  by_cases h : s.config.logicResetsVF = true
  · simp [State.logicReset, h]; rfl
  · simp [State.logicReset, h]

theorem storeBlock_setST (ks : List RegIdx) (s : State) (b : Byte) :
    (s.setST b).storeBlock ks = (s.storeBlock ks).setST b := by
  induction ks generalizing s with
  | nil => rfl
  | cons k ks ih => exact ih (s.writeData k.val (s.readV k))

theorem loadBlock_setST (ks : List RegIdx) (s : State) (b : Byte) :
    (s.setST b).loadBlock ks = (s.loadBlock ks).setST b := by
  induction ks generalizing s with
  | nil => rfl
  | cons k ks ih => exact ih (s.writeV k (s.readData k.val))

theorem blockIncrement_setST (s : State) (x : RegIdx) (b : Byte) :
    (s.setST b).blockIncrement x = (s.blockIncrement x).setST b := by
  by_cases h : s.config.loadStoreIncrementsI = true
  · simp [State.blockIncrement, h]; rfl
  · simp [State.blockIncrement, h]

theorem logicReset_setST (s : State) (b : Byte) : (s.setST b).logicReset = s.logicReset.setST b := by
  by_cases h : s.config.logicResetsVF = true
  · simp [State.logicReset, h]; rfl
  · simp [State.logicReset, h]

end Sys2Proof.Machine
end

