-- ==== Sys2Proof/Laws/Decode.lean ====
section
/-! SUPPORT. The fields of an encoded word are the fields it was built from, and a word is rebuilt from its fields. -/

namespace Sys2Proof

@[simp] theorem regBits_toFin (r : RegIdx) : (regBits r).toFin = r := rfl

@[simp] theorem regBits_xField (op : Word) : regBits (xField op) = xBits op := rfl

@[simp] theorem regBits_yField (op : Word) : regBits (yField op) = yBits op := rfl

@[simp] theorem regBits_nField (op : Word) : regBits (nField op) = nBits op := rfl

section
variable (f x y n : Nibble) (kk : Byte) (nnn : Addr) (op : Word)

theorem nat_extract (w : Word) (start len : Nat) :
    (w.extractLsb' start len).toNat = w.toNat / 2 ^ start % 2 ^ len := by
  simp [BitVec.extractLsb'_toNat, Nat.shiftRight_eq_div_pow]

@[simp] theorem famField_encAddr : famField (encAddr f nnn) = f := by
  apply BitVec.eq_of_toNat_eq
  simp only [famField, encAddr, nat_extract, BitVec.toNat_ofNat]
  omega

@[simp] theorem nnnField_encAddr : nnnField (encAddr f nnn) = nnn := by
  apply BitVec.eq_of_toNat_eq
  simp only [nnnField, encAddr, nat_extract, BitVec.toNat_ofNat]
  omega

@[simp] theorem famField_encXKK : famField (encXKK f x kk) = f := by
  apply BitVec.eq_of_toNat_eq
  simp only [famField, encXKK, nat_extract, BitVec.toNat_ofNat]
  omega

@[simp] theorem xBits_encXKK : xBits (encXKK f x kk) = x := by
  apply BitVec.eq_of_toNat_eq
  simp only [xBits, encXKK, nat_extract, BitVec.toNat_ofNat]
  omega

@[simp] theorem kkField_encXKK : kkField (encXKK f x kk) = kk := by
  apply BitVec.eq_of_toNat_eq
  simp only [kkField, encXKK, nat_extract, BitVec.toNat_ofNat]
  omega

@[simp] theorem famField_encXYN : famField (encXYN f x y n) = f := by
  apply BitVec.eq_of_toNat_eq
  simp only [famField, encXYN, nat_extract, BitVec.toNat_ofNat]
  omega

@[simp] theorem xBits_encXYN : xBits (encXYN f x y n) = x := by
  apply BitVec.eq_of_toNat_eq
  simp only [xBits, encXYN, nat_extract, BitVec.toNat_ofNat]
  omega

@[simp] theorem yBits_encXYN : yBits (encXYN f x y n) = y := by
  apply BitVec.eq_of_toNat_eq
  simp only [yBits, encXYN, nat_extract, BitVec.toNat_ofNat]
  omega

@[simp] theorem nBits_encXYN : nBits (encXYN f x y n) = n := by
  apply BitVec.eq_of_toNat_eq
  simp only [nBits, encXYN, nat_extract, BitVec.toNat_ofNat]
  omega

theorem encAddr_fields : encAddr (famField op) (nnnField op) = op := by
  apply BitVec.eq_of_toNat_eq
  simp only [famField, nnnField, encAddr, nat_extract, BitVec.toNat_ofNat]
  omega

theorem encXKK_fields : encXKK (famField op) (xBits op) (kkField op) = op := by
  apply BitVec.eq_of_toNat_eq
  simp only [famField, xBits, kkField, encXKK, nat_extract, BitVec.toNat_ofNat]
  omega

theorem encXYN_fields : encXYN (famField op) (xBits op) (yBits op) (nBits op) = op := by
  apply BitVec.eq_of_toNat_eq
  simp only [famField, xBits, yBits, nBits, encXYN, nat_extract, BitVec.toNat_ofNat]
  omega

@[simp] theorem xField_encXKK : xField (encXKK f x kk) = x.toFin := by simp [xField]

@[simp] theorem xField_encXYN : xField (encXYN f x y n) = x.toFin := by simp [xField]

@[simp] theorem yField_encXYN : yField (encXYN f x y n) = y.toFin := by simp [yField]

@[simp] theorem nField_encXYN : nField (encXYN f x y n) = n.toFin := by simp [nField]

/-- The two bytes of a word, combined again (R62). -/
@[simp] theorem wordOfBytes_bytes : wordOfBytes (highByte op) (lowByte op) = op := by
  apply BitVec.eq_of_toNat_eq
  simp only [wordOfBytes, highByte, lowByte, nat_extract, BitVec.toNat_ofNat]
  omega

end

end Sys2Proof
end

