-- ==== Sys2Proof/Laws/Draw.lean ====
section
/-! SUPPORT. Pixels after a write, after one toggle and after one sprite row. -/

namespace Sys2Proof.Machine.Display

theorem pixel_flipPixel (d : Display) (row row' : Fin displayH) (col col' : Fin displayW) :
    (d.flipPixel row col).pixel row' col' = (d.pixel row' col' ^^ decide (row' = row ∧ col' = col)) := by
  by_cases hr : row' = row
  · subst hr
    simp [Display.pixel, Display.flipPixel, Fin.ext_iff, eq_comm]
  · have : row.val ≠ row'.val := fun e => hr (Fin.ext e.symm)
    simp [Display.pixel, Display.flipPixel, hr, this]

theorem toggle_pixel (row row' : Fin displayH) (col col' : Fin displayW) (acc : Display × Bool) :
    (Display.toggle row col acc).1.pixel row' col' =
      if row' = row ∧ col' = col then !acc.1.pixel row' col' else acc.1.pixel row' col' := by
  by_cases h : row' = row ∧ col' = col <;> simp [Display.toggle, pixel_flipPixel, h, -Bool.decide_and]

theorem clear_pixel (row : Fin displayH) (col : Fin displayW) : Display.clear.pixel row col = false := by
  simp [Display.clear, Display.pixel]

/-- Displays with the same pixels are the same display. -/
theorem ext_pixel {d d' : Display} (h : ∀ row col, d.pixel row col = d'.pixel row col) : d = d' := by
  apply Vector.ext
  intro r hr
  apply BitVec.eq_of_getLsbD_eq
  intro c hc
  exact h ⟨r, hr⟩ ⟨c, hc⟩

/-- One sprite row: bits `js` of `b`, each at most once, toggle the pixels they fall on in `row`, and the collision flag
is set when one of those pixels was on (R203). -/
theorem drawBits_spec (row : Fin displayH) (x0 : Nat) (b : Byte) (js : List Nat) (hn : js.Nodup) (acc : Display × Bool) :
    (∀ row' col, (Display.drawBits row x0 b js acc).1.pixel row' col =
      (acc.1.pixel row' col ^^ decide (row' = row ∧ ∃ j ∈ js, x0 + j = col.val ∧ b.getLsbD (7 - j) = true))) ∧
    ((Display.drawBits row x0 b js acc).2 = true ↔
      acc.2 = true ∨ ∃ col, acc.1.pixel row col = true ∧ ∃ j ∈ js, x0 + j = col.val ∧ b.getLsbD (7 - j) = true) := by
  induction js generalizing acc with
  | nil => simp [Display.drawBits]
  | cons j js ih =>
    obtain ⟨hj, hjs⟩ := List.nodup_cons.mp hn
    simp only [Display.drawBits]
    by_cases hon : ∃ h : x0 + j < displayW, b.getLsbD (7 - j) = true
    · obtain ⟨h, hb⟩ := hon
      simp only [h, dif_pos, hb, if_true]
      obtain ⟨ihp, ihc⟩ := ih hjs (Display.toggle row ⟨x0 + j, h⟩ acc)
      have hnot : ∀ col : Fin displayW, x0 + j = col.val → ¬∃ k ∈ js, x0 + k = col.val ∧ b.getLsbD (7 - k) = true := by
        rintro col hc ⟨k, hk, hkc, -⟩
        exact hj ((by omega : k = j) ▸ hk)
      refine ⟨fun row' col => ?_, ?_⟩
      · rw [ihp, toggle_pixel]
        by_cases hr : row' = row
        · subst hr
          by_cases hc : col = ⟨x0 + j, h⟩
          · subst hc
            simp [hb, hj]
          · have hne : x0 + j ≠ col.val := fun e => hc (Fin.ext e.symm)
            simp [hc, hne]
        · simp [hr]
      · rw [ihc]
        simp only [toggle_pixel, true_and]
        simp only [Display.toggle, Bool.or_eq_true]
        constructor
        · rintro ((h1 | h1) | ⟨col, h1, k, hk, hkc, hkb⟩)
          · exact .inl h1
          · exact .inr ⟨_, h1, j, by simp, rfl, hb⟩
          · have hc : col ≠ ⟨x0 + j, h⟩ := by
              rintro rfl
              exact hnot _ rfl ⟨k, hk, hkc, hkb⟩
            rw [if_neg hc] at h1
            exact .inr ⟨col, h1, k, by simp [hk], hkc, hkb⟩
        · rintro (h1 | ⟨col, h1, k, hk, hkc, hkb⟩)
          · exact .inl (.inl h1)
          · rcases List.mem_cons.mp hk with rfl | hk
            · have : col = ⟨x0 + k, h⟩ := Fin.ext hkc.symm
              subst this
              exact .inl (.inr h1)
            · have hc : col ≠ ⟨x0 + j, h⟩ := by
                rintro rfl
                exact hnot _ rfl ⟨k, hk, hkc, hkb⟩
              exact .inr ⟨col, by rwa [if_neg hc], k, hk, hkc, hkb⟩
    · have hskip : (if h : x0 + j < displayW then
          if b.getLsbD (7 - j) = true then Display.toggle row ⟨x0 + j, h⟩ acc else acc else acc) = acc := by
        split
        · rename_i h
          rw [if_neg fun hb => hon ⟨h, hb⟩]
        · rfl
      rw [hskip]
      obtain ⟨ihp, ihc⟩ := ih hjs acc
      have hno : ∀ col : Fin displayW, ¬(x0 + j = col.val ∧ b.getLsbD (7 - j) = true) :=
        fun col hc => hon ⟨hc.1 ▸ col.isLt, hc.2⟩
      simp only [List.mem_cons, exists_eq_or_imp, hno, false_or]
      exact ⟨ihp, ihc⟩

/-- A sprite row `b` at column `x0` has a 1 bit on column `col`. -/
def rowHits (x0 : Nat) (b : Byte) (col : Fin displayW) : Prop :=
  ∃ j ∈ List.range 8, x0 + j = col.val ∧ b.getLsbD (7 - j) = true

/-- The sprite rows `bs`, the first of them sprite row `r`, have a visible 1 bit on pixel (row, col). -/
def rowsHit (edge : RowEdge) (x0 y0 r : Nat) (bs : List Byte) (row : Fin displayH) (col : Fin displayW) : Prop :=
  ∃ k b, bs[k]? = some b ∧ (y0 + (r + k) < displayH ∨ edge = .wrap) ∧ (y0 + (r + k)) % displayH = row.val ∧
    rowHits x0 b col

theorem rowsHit_cons (edge : RowEdge) (x0 y0 r : Nat) (b : Byte) (bs : List Byte) (row : Fin displayH)
    (col : Fin displayW) : rowsHit edge x0 y0 r (b :: bs) row col ↔
      ((y0 + r < displayH ∨ edge = .wrap) ∧ (y0 + r) % displayH = row.val ∧ rowHits x0 b col) ∨
      rowsHit edge x0 y0 (r + 1) bs row col := by
  constructor
  · rintro ⟨k, c, hk, hv, hr, hh⟩
    cases k with
    | zero =>
      obtain rfl : b = c := by simpa using hk
      exact .inl ⟨hv, hr, hh⟩
    | succ k =>
      have e : r + 1 + k = r + (k + 1) := by omega
      exact .inr ⟨k, c, by simpa using hk, by rwa [e], by rwa [e], hh⟩
  · rintro (⟨hv, hr, hh⟩ | ⟨k, c, hk, hv, hr, hh⟩)
    · exact ⟨0, b, rfl, hv, hr, hh⟩
    · have e : r + 1 + k = r + (k + 1) := by omega
      exact ⟨k + 1, c, by simpa using hk, by rwa [← e], by rwa [← e], hh⟩

open Classical in
/-- The rows of a sprite: no two of at most 32 rows fall on one display row, so each pixel is toggled at most once, and
the collision flag is set exactly when a toggled pixel was on (R203). -/
theorem drawRows_spec (edge : RowEdge) (x0 y0 r : Nat) (bs : List Byte) (hlen : bs.length ≤ displayH)
    (acc : Display × Bool) :
    (∀ row col, (Display.drawRows edge x0 y0 r bs acc).1.pixel row col =
      (acc.1.pixel row col ^^ decide (rowsHit edge x0 y0 r bs row col))) ∧
    ((Display.drawRows edge x0 y0 r bs acc).2 = true ↔
      acc.2 = true ∨ ∃ row col, acc.1.pixel row col = true ∧ rowsHit edge x0 y0 r bs row col) := by
  induction bs generalizing r acc with
  | nil => simp [Display.drawRows, rowsHit]
  | cons b bs ih =>
    simp only [List.length_cons, displayH] at hlen
    simp only [Display.drawRows]
    by_cases hclip : displayH ≤ y0 + r ∧ edge = .clip
    · have hno : ¬(y0 + r < displayH ∨ edge = .wrap) := by
        rintro (h | h)
        · omega
        · simp [h] at hclip
      obtain ⟨ihp, ihc⟩ := ih (r + 1) (by simp only [displayH]; omega) acc
      simp only [if_pos hclip, rowsHit_cons, hno, false_and, false_or]
      exact ⟨ihp, ihc⟩
    · have hvis : y0 + r < displayH ∨ edge = .wrap := by
        rcases Nat.lt_or_ge (y0 + r) displayH with h | h
        · exact .inl h
        · cases edge with
          | wrap => exact .inr rfl
          | clip => exact absurd ⟨h, rfl⟩ hclip
      rw [if_neg hclip]
      set row0 : Fin displayH := ⟨(y0 + r) % displayH, Nat.mod_lt _ (by decide)⟩ with hrow0
      obtain ⟨bp, bc⟩ := drawBits_spec row0 x0 b (List.range 8) List.nodup_range acc
      obtain ⟨ihp, ihc⟩ := ih (r + 1) (by simp only [displayH]; omega)
        (Display.drawBits row0 x0 b (List.range 8) acc)
      have hdis : ∀ col, ¬rowsHit edge x0 y0 (r + 1) bs row0 col := by
        rintro col ⟨k, c, hk, -, hrow, -⟩
        have hlt : k < bs.length := by
          by_contra hge
          simp [List.getElem?_eq_none (Nat.le_of_not_lt hge)] at hk
        simp only [hrow0, displayH] at hrow
        omega
      have hhead : ∀ row col, ((y0 + r < displayH ∨ edge = .wrap) ∧ (y0 + r) % displayH = row.val ∧ rowHits x0 b col) ↔
          (row = row0 ∧ rowHits x0 b col) := fun row col =>
        ⟨fun h => ⟨Fin.ext h.2.1.symm, h.2.2⟩, fun h => ⟨hvis, by rw [h.1], h.2⟩⟩
      simp only [rowsHit_cons, hhead]
      refine ⟨fun row col => ?_, ?_⟩
      · rw [ihp, bp]
        by_cases hr : row = row0
        · subst hr
          simp [hdis col, rowHits]
        · simp [hr]
      · rw [ihc, bc]
        constructor
        · rintro ((h | ⟨col, h, hh⟩) | ⟨row, col, h, hh⟩)
          · exact .inl h
          · exact .inr ⟨row0, col, h, .inl ⟨rfl, hh⟩⟩
          · rw [bp] at h
            have hr : row ≠ row0 := fun e => hdis col (e ▸ hh)
            exact .inr ⟨row, col, by simpa [hr] using h, .inr hh⟩
        · rintro (h | ⟨row, col, h, ⟨rfl, hh⟩ | hh⟩)
          · exact .inl (.inl h)
          · exact .inl (.inr ⟨col, h, hh⟩)
          · have hr : row ≠ row0 := fun e => hdis col (e ▸ hh)
            exact .inr ⟨row, col, by rw [bp]; simpa [hr] using h, hh⟩

end Sys2Proof.Machine.Display
end

