-- ==== Sys2Proof/Laws/HostActions.lean ====
section
/-! SUPPORT. What one host action can do to a session, said once, and the induction over a run. -/

namespace Sys2Proof.Machine

/-- Nothing follows an abort (R273). -/
theorem apply_of_aborted {h : Session} (ha : h.aborted = true) (a : HostAction) : a.apply h = none := by
  simp [HostAction.apply, ha]

/-- An aborted session has ended. -/
theorem aborted_of_not_ended {h : Session} (he : h.ended = false) : h.aborted = false := by
  simp only [Session.ended, Bool.or_eq_false_iff] at he
  exact he.1

/-- After an error that ended the run a reset alone may be performed (R261). -/
theorem reset_of_ended {a : HostAction} {h k : Session} (he : h.ended = true) (e : a.apply h = some k) : a = .reset := by
  by_contra hr
  simp [HostAction.apply, he, hr] at e

/-- Nothing follows the end of a run (R277). -/
theorem runHost_of_ended {h : Session} (he : h.ended = true) (a : HostAction) (rest : List HostAction) :
    runHost (a :: rest) h = none := by
  simp [runHost, he]

/-- The first action of a run that goes on. -/
theorem runHost_cons {a : HostAction} {rest : List HostAction} {h k : Session} (e : runHost (a :: rest) h = some k) :
    h.ended = false ∧ ∃ m, a.apply h = some m ∧ runHost rest m = some k := by
  simp only [runHost] at e
  split at e
  · cases e
  · rename_i he
    split at e
    · cases e
    · rename_i m hm; exact ⟨by simpa using he, m, hm, e⟩

/-- Everything that an action which may be performed can do: which machine and which unanswered error it leaves. -/
theorem apply_cases {a : HostAction} {h k : Session} (e : a.apply h = some k) : h.aborted = false ∧
    ((a = .step ∧ h.error = none ∧ step h.machine = .next k.machine ∧ k.error = none) ∨
     (∃ f, a = .step ∧ step h.machine = .fault f ∧ k.machine = h.machine ∧ k.error = some f) ∨
     (a = .tick ∧ k.machine = h.machine.tick ∧ k.error = h.error) ∨
     (∃ i p, a = .setKey i p ∧ k.machine = h.machine.setKey i p ∧ k.error = h.error) ∨
     (∃ rom, a = .loadRom rom ∧ k.error = h.error ∧
       (k.machine = h.machine ∨ k.machine = h.machine.writeBytes programStart rom)) ∨
     (a = .reset ∧ k.machine = h.machine.hostReset ∧ k.error = none) ∨
     (a = .skipInvalid ∧ h.maySkip = true ∧ k.machine = h.machine.advance ∧ k.error = none) ∨
     ((a = .snapshot ∨ a = .soundActive ∨ a = .abort) ∧ k.machine = h.machine ∧ k.error = h.error)) := by
  by_cases ha : h.aborted = true ∨ (h.ended = true ∧ a ≠ .reset)
  · unfold HostAction.apply at e; rw [if_pos ha] at e; cases e
  refine ⟨by simpa using fun h' => ha (.inl h'), ?_⟩
  unfold HostAction.apply at e
  rw [if_neg ha] at e
  cases a
  case step =>
    simp only [Session.callStep] at e
    split at e
    · rename_i t ht
      split at e
      · rename_i he; cases e; exact .inl ⟨rfl, he, ht, he⟩
      · cases e
    · rename_i f hf; cases e; exact .inr (.inl ⟨f, rfl, hf, rfl, rfl⟩)
    · cases e
  case setKey i p => cases e; exact .inr (.inr (.inr (.inl ⟨i, p, rfl, rfl, rfl⟩)))
  case loadRom rom =>
    simp only [Session.load, State.loadRom, Option.some.injEq] at e
    refine .inr (.inr (.inr (.inr (.inl ⟨rom, rfl, ?_⟩))))
    split at e <;> rename_i hl <;> split at hl <;> cases hl <;> cases e <;> simp
  case skipInvalid =>
    simp only at e
    split at e
    · rename_i hs; cases e; simp [hs, State.skipInvalid]
    · cases e
  all_goals (cases e; simp)

/-- The last error is an InvalidOpcode where `skip_invalid` may be performed (R273). -/
theorem maySkip_error {h : Session} (hs : h.maySkip = true) : ∃ op, h.error = some (.invalidOpcode op) := by
  unfold Session.maySkip at hs
  split at hs
  · rename_i op he; exact ⟨op, he⟩
  all_goals cases hs

/-- What every performed action keeps, every run keeps. -/
theorem runHost_induct {P : Session → Session → Prop} (refl : ∀ h, P h h)
    (cons : ∀ (a : HostAction) (h k m : Session), a.apply h = some k → P k m → P h m) :
    ∀ (actions : List HostAction) (h k : Session), runHost actions h = some k → P h k
  | [], h, k, e => by cases e; exact refl h
  | a :: rest, h, k, e => by
    obtain ⟨-, m, hm, e⟩ := runHost_cons e
    exact cons a h m k hm (runHost_induct refl cons rest m k e)

end Sys2Proof.Machine
end

