-- ==== Sys2Proof/Laws/PerInstr.lean ====
section
/-! SUPPORT. Per instruction: the word that `encode` gives has the bits that the instruction's row of
spec/opcode_table.json fixes (R84). -/

namespace Sys2Proof.Laws.TableRow

/-- Bits `hi` down to `lo` of a word hold `value`. -/
structure FixedBits where
  hi : Nat
  lo : Nat
  value : Nat
  deriving DecidableEq, Repr

/-- The entry "fixed" of each row of the table. -/
def fixedBits : Instr → List FixedBits
  | .cls _ => [⟨7, 0, 224⟩, ⟨15, 12, 0⟩]
  | .ret _ => [⟨7, 0, 238⟩, ⟨15, 12, 0⟩]
  | .jp _ => [⟨15, 12, 1⟩]
  | .call _ => [⟨15, 12, 2⟩]
  | .seImm _ _ => [⟨15, 12, 3⟩]
  | .sneImm _ _ => [⟨15, 12, 4⟩]
  | .seReg _ _ _ => [⟨15, 12, 5⟩]
  | .ldImm _ _ => [⟨15, 12, 6⟩]
  | .addImm _ _ => [⟨15, 12, 7⟩]
  | .ldReg _ _ => [⟨3, 0, 0⟩, ⟨15, 12, 8⟩]
  | .orReg _ _ => [⟨3, 0, 1⟩, ⟨15, 12, 8⟩]
  | .andReg _ _ => [⟨3, 0, 2⟩, ⟨15, 12, 8⟩]
  | .xorReg _ _ => [⟨3, 0, 3⟩, ⟨15, 12, 8⟩]
  | .addReg _ _ => [⟨3, 0, 4⟩, ⟨15, 12, 8⟩]
  | .subReg _ _ => [⟨3, 0, 5⟩, ⟨15, 12, 8⟩]
  | .shr _ _ => [⟨3, 0, 6⟩, ⟨15, 12, 8⟩]
  | .subn _ _ => [⟨3, 0, 7⟩, ⟨15, 12, 8⟩]
  | .shl _ _ => [⟨3, 0, 14⟩, ⟨15, 12, 8⟩]
  | .sneReg _ _ _ => [⟨15, 12, 9⟩]
  | .ldI _ => [⟨15, 12, 10⟩]
  | .jpV0 _ => [⟨15, 12, 11⟩]
  | .rnd _ _ => [⟨15, 12, 12⟩]
  | .drw _ _ _ => [⟨15, 12, 13⟩]
  | .skp _ => [⟨7, 0, 158⟩, ⟨15, 12, 14⟩]
  | .sknp _ => [⟨7, 0, 161⟩, ⟨15, 12, 14⟩]
  | .ldVxDT _ => [⟨7, 0, 7⟩, ⟨15, 12, 15⟩]
  | .ldVxK _ => [⟨7, 0, 10⟩, ⟨15, 12, 15⟩]
  | .ldDTVx _ => [⟨7, 0, 21⟩, ⟨15, 12, 15⟩]
  | .ldSTVx _ => [⟨7, 0, 24⟩, ⟨15, 12, 15⟩]
  | .addI _ => [⟨7, 0, 30⟩, ⟨15, 12, 15⟩]
  | .ldF _ => [⟨7, 0, 41⟩, ⟨15, 12, 15⟩]
  | .ldB _ => [⟨7, 0, 51⟩, ⟨15, 12, 15⟩]
  | .storeRegs _ => [⟨7, 0, 85⟩, ⟨15, 12, 15⟩]
  | .loadRegs _ => [⟨7, 0, 101⟩, ⟨15, 12, 15⟩]

/-- Every fixed field of the row stands in the instruction's word. -/
def Statement (i : Instr) : Prop :=
  ∀ f ∈ fixedBits i, ((encode i).extractLsb' f.lo (f.hi + 1 - f.lo)).toNat = f.value

theorem cls (ign : Nibble) : Statement (.cls ign) := by
  simp only [Statement, fixedBits, encode, encXKK, nat_extract, BitVec.toNat_ofNat, List.forall_mem_cons]
  simp
  omega

theorem ret (ign : Nibble) : Statement (.ret ign) := by
  simp only [Statement, fixedBits, encode, encXKK, nat_extract, BitVec.toNat_ofNat, List.forall_mem_cons]
  simp
  omega

theorem jp (nnn : Addr) : Statement (.jp nnn) := by
  simp only [Statement, fixedBits, encode, encAddr, nat_extract, BitVec.toNat_ofNat, List.forall_mem_cons]
  simp
  omega

theorem call (nnn : Addr) : Statement (.call nnn) := by
  simp only [Statement, fixedBits, encode, encAddr, nat_extract, BitVec.toNat_ofNat, List.forall_mem_cons]
  simp
  omega

theorem seImm (x : RegIdx) (kk : Byte) : Statement (.seImm x kk) := by
  simp only [Statement, fixedBits, encode, encXKK, nat_extract, BitVec.toNat_ofNat, List.forall_mem_cons]
  simp
  omega

theorem sneImm (x : RegIdx) (kk : Byte) : Statement (.sneImm x kk) := by
  simp only [Statement, fixedBits, encode, encXKK, nat_extract, BitVec.toNat_ofNat, List.forall_mem_cons]
  simp
  omega

theorem seReg (x : RegIdx) (y : RegIdx) (ign : Nibble) : Statement (.seReg x y ign) := by
  simp only [Statement, fixedBits, encode, encXYN, nat_extract, BitVec.toNat_ofNat, List.forall_mem_cons]
  simp
  omega

theorem ldImm (x : RegIdx) (kk : Byte) : Statement (.ldImm x kk) := by
  simp only [Statement, fixedBits, encode, encXKK, nat_extract, BitVec.toNat_ofNat, List.forall_mem_cons]
  simp
  omega

theorem addImm (x : RegIdx) (kk : Byte) : Statement (.addImm x kk) := by
  simp only [Statement, fixedBits, encode, encXKK, nat_extract, BitVec.toNat_ofNat, List.forall_mem_cons]
  simp
  omega

theorem ldReg (x : RegIdx) (y : RegIdx) : Statement (.ldReg x y) := by
  simp only [Statement, fixedBits, encode, encXYN, nat_extract, BitVec.toNat_ofNat, List.forall_mem_cons]
  simp
  omega

theorem orReg (x : RegIdx) (y : RegIdx) : Statement (.orReg x y) := by
  simp only [Statement, fixedBits, encode, encXYN, nat_extract, BitVec.toNat_ofNat, List.forall_mem_cons]
  simp
  omega

theorem andReg (x : RegIdx) (y : RegIdx) : Statement (.andReg x y) := by
  simp only [Statement, fixedBits, encode, encXYN, nat_extract, BitVec.toNat_ofNat, List.forall_mem_cons]
  simp
  omega

theorem xorReg (x : RegIdx) (y : RegIdx) : Statement (.xorReg x y) := by
  simp only [Statement, fixedBits, encode, encXYN, nat_extract, BitVec.toNat_ofNat, List.forall_mem_cons]
  simp
  omega

theorem addReg (x : RegIdx) (y : RegIdx) : Statement (.addReg x y) := by
  simp only [Statement, fixedBits, encode, encXYN, nat_extract, BitVec.toNat_ofNat, List.forall_mem_cons]
  simp
  omega

theorem subReg (x : RegIdx) (y : RegIdx) : Statement (.subReg x y) := by
  simp only [Statement, fixedBits, encode, encXYN, nat_extract, BitVec.toNat_ofNat, List.forall_mem_cons]
  simp
  omega

theorem shr (x : RegIdx) (y : RegIdx) : Statement (.shr x y) := by
  simp only [Statement, fixedBits, encode, encXYN, nat_extract, BitVec.toNat_ofNat, List.forall_mem_cons]
  simp
  omega

theorem subn (x : RegIdx) (y : RegIdx) : Statement (.subn x y) := by
  simp only [Statement, fixedBits, encode, encXYN, nat_extract, BitVec.toNat_ofNat, List.forall_mem_cons]
  simp
  omega

theorem shl (x : RegIdx) (y : RegIdx) : Statement (.shl x y) := by
  simp only [Statement, fixedBits, encode, encXYN, nat_extract, BitVec.toNat_ofNat, List.forall_mem_cons]
  simp
  omega

theorem sneReg (x : RegIdx) (y : RegIdx) (ign : Nibble) : Statement (.sneReg x y ign) := by
  simp only [Statement, fixedBits, encode, encXYN, nat_extract, BitVec.toNat_ofNat, List.forall_mem_cons]
  simp
  omega

theorem ldI (nnn : Addr) : Statement (.ldI nnn) := by
  simp only [Statement, fixedBits, encode, encAddr, nat_extract, BitVec.toNat_ofNat, List.forall_mem_cons]
  simp
  omega

theorem jpV0 (nnn : Addr) : Statement (.jpV0 nnn) := by
  simp only [Statement, fixedBits, encode, encAddr, nat_extract, BitVec.toNat_ofNat, List.forall_mem_cons]
  simp
  omega

theorem rnd (x : RegIdx) (kk : Byte) : Statement (.rnd x kk) := by
  simp only [Statement, fixedBits, encode, encXKK, nat_extract, BitVec.toNat_ofNat, List.forall_mem_cons]
  simp
  omega

theorem drw (x : RegIdx) (y : RegIdx) (n : Fin 16) : Statement (.drw x y n) := by
  simp only [Statement, fixedBits, encode, encXYN, nat_extract, BitVec.toNat_ofNat, List.forall_mem_cons]
  simp
  omega

theorem skp (x : RegIdx) : Statement (.skp x) := by
  simp only [Statement, fixedBits, encode, encXKK, nat_extract, BitVec.toNat_ofNat, List.forall_mem_cons]
  simp
  omega

theorem sknp (x : RegIdx) : Statement (.sknp x) := by
  simp only [Statement, fixedBits, encode, encXKK, nat_extract, BitVec.toNat_ofNat, List.forall_mem_cons]
  simp
  omega

theorem ldVxDT (x : RegIdx) : Statement (.ldVxDT x) := by
  simp only [Statement, fixedBits, encode, encXKK, nat_extract, BitVec.toNat_ofNat, List.forall_mem_cons]
  simp
  omega

theorem ldVxK (x : RegIdx) : Statement (.ldVxK x) := by
  simp only [Statement, fixedBits, encode, encXKK, nat_extract, BitVec.toNat_ofNat, List.forall_mem_cons]
  simp
  omega

theorem ldDTVx (x : RegIdx) : Statement (.ldDTVx x) := by
  simp only [Statement, fixedBits, encode, encXKK, nat_extract, BitVec.toNat_ofNat, List.forall_mem_cons]
  simp
  omega

theorem ldSTVx (x : RegIdx) : Statement (.ldSTVx x) := by
  simp only [Statement, fixedBits, encode, encXKK, nat_extract, BitVec.toNat_ofNat, List.forall_mem_cons]
  simp
  omega

theorem addI (x : RegIdx) : Statement (.addI x) := by
  simp only [Statement, fixedBits, encode, encXKK, nat_extract, BitVec.toNat_ofNat, List.forall_mem_cons]
  simp
  omega

theorem ldF (x : RegIdx) : Statement (.ldF x) := by
  simp only [Statement, fixedBits, encode, encXKK, nat_extract, BitVec.toNat_ofNat, List.forall_mem_cons]
  simp
  omega

theorem ldB (x : RegIdx) : Statement (.ldB x) := by
  simp only [Statement, fixedBits, encode, encXKK, nat_extract, BitVec.toNat_ofNat, List.forall_mem_cons]
  simp
  omega

theorem storeRegs (x : RegIdx) : Statement (.storeRegs x) := by
  simp only [Statement, fixedBits, encode, encXKK, nat_extract, BitVec.toNat_ofNat, List.forall_mem_cons]
  simp
  omega

theorem loadRegs (x : RegIdx) : Statement (.loadRegs x) := by
  simp only [Statement, fixedBits, encode, encXKK, nat_extract, BitVec.toNat_ofNat, List.forall_mem_cons]
  simp
  omega

end Sys2Proof.Laws.TableRow
end

