-- ==== Sys2Proof/Laws/Step.lean ====
section
/-! SUPPORT. What one step can do (R111): one lemma per way it goes, and the inversion of its next state. -/

namespace Sys2Proof.Machine

theorem step_of_wait {s : State} {w : KeyWait} (h : s.wait = some w) : step s = .next (s.keyWaitPoll w) := by
  simp [step, h]

theorem step_of_fetch_error {s : State} {e : Fault} (hw : s.wait = none) (h : s.fetchInstr = .error e) :
    step s = .fault e := by
  simp [step, hw, h, raise]

theorem step_of_fetch_ok {s : State} {i : Instr} (hw : s.wait = none) (h : s.fetchInstr = .ok i) :
    step s = exec i s := by
  simp [step, hw, h]

/-- A step that answers a next state polled a wait or executed the fetched instruction. -/
theorem step_next_cases {s t : State} (h : step s = .next t) :
    (∃ w, s.wait = some w ∧ t = s.keyWaitPoll w) ∨
    (s.wait = none ∧ ∃ i, s.fetchInstr = .ok i ∧ exec i s = .next t) := by
  unfold step at h
  split at h
  · rename_i w hw
    exact .inl ⟨w, hw, by simpa using h.symm⟩
  · rename_i hw
    split at h
    · simp [raise] at h
    · rename_i i hi
      exact .inr ⟨hw, i, hi, h⟩

/-- What a successful fetch says: the bound of R66 holds and the word at PC decodes. -/
theorem fetchInstr_ok {s : State} {i : Instr} (h : s.fetchInstr = .ok i) :
    s.pc.toNat + 1 < memSize ∧ ∃ op, s.fetchWord = .ok op ∧ decode s.config.strictDecode op = .ok i := by
  unfold State.fetchInstr at h
  split at h
  · simp at h
  · rename_i op hop
    refine ⟨?_, op, hop, ?_⟩
    · unfold State.fetchWord at hop
      split at hop
      · simp at hop
      · omega
    · split at h
      · rename_i hd
        simpa [hd] using h
      · simp at h

/-- What a failing fetch says: MemoryFault at the bound, else InvalidOpcode with the word (R257). -/
theorem fetchInstr_error {s : State} {e : Fault} (h : s.fetchInstr = .error e) :
    (memSize ≤ s.pc.toNat + 1 ∧ e = .memoryFault s.pc) ∨
    (s.pc.toNat + 1 < memSize ∧ ∃ op, s.fetchWord = .ok op ∧
      (∃ r, decode s.config.strictDecode op = .error r) ∧ e = .invalidOpcode op) := by
  unfold State.fetchInstr at h
  split at h
  · rename_i e' he
    unfold State.fetchWord at he
    split at he
    · rename_i hb
      simp only [Except.error.injEq] at h he
      exact .inl ⟨hb, by rw [← h, ← he]⟩
    · simp at he
  · rename_i op hop
    refine .inr ⟨?_, op, hop, ?_⟩
    · unfold State.fetchWord at hop
      split at hop
      · simp at hop
      · omega
    · split at h
      · simp at h
      · rename_i r hr
        exact ⟨⟨r, hr⟩, by simpa using h.symm⟩

/-- The two outcomes of a poll (R224). -/
theorem keyWaitPoll_cases (s : State) (w : KeyWait) :
    (∃ k, lowestNewPress w.seen s.keys = some k ∧
      s.keyWaitPoll w = ((s.writeV w.dest (BitVec.ofNat 8 k.val)).setWait none).advance) ∨
    (lowestNewPress w.seen s.keys = none ∧ s.keyWaitPoll w = s.setWait (some ⟨w.dest, s.keys⟩)) := by
  unfold State.keyWaitPoll
  split
  · rename_i k hk
    exact .inl ⟨k, hk, rfl⟩
  · rename_i hk
    exact .inr ⟨hk, rfl⟩

end Sys2Proof.Machine
end

