-- ==== Sys2Proof/Tests/Slice0.lean ====
section
/-! SUPPORT. Tests, each a small fact with its expected value taken from spec/ (the vectors of spec/95_test_vectors.md are
named C1, A1, M1, D1, K1, E1 …), and one witness for every statement that has hypotheses. -/

namespace Sys2Proof.Tests

open Sys2Proof.Machine

/-! ### Helpers -/

/-- The outcome is a next state with `p`. -/
def nextWith (r : Result) (p : State → Bool) : Bool :=
  match r with
  | .next t => p t
  | .fault _ => false
  | .refused _ => false

/-- The outcome is the error `e`. -/
def faultWith (r : Result) (e : Fault) : Bool :=
  match r with
  | .next _ => false
  | .fault e' => e' == e
  | .refused _ => false

/-- Reset with the word `op` at 0x200. -/
def boot (op : Word) : State := State.reset.placeWord op

/-- Reset under the parameters `c` with the word `op` at 0x200. -/
def bootWith (c : Config) (op : Word) : State := (State.resetWith c).placeWord op

/-- `s` with registers set. -/
def regs (s : State) (l : List (RegIdx × Byte)) : State := l.foldl (fun t p => t.writeV p.1 p.2) s

/-- `s` with the stack replaced. -/
def stacked (s : State) (l : List Word) : State := { s with stack := l }

/-- A display with one pixel on. -/
def onePixel (row : Fin displayH) (col : Fin displayW) : Display := Display.clear.flipPixel row col

/-- A state of a run: a CALL at 0x200 with one return address on the stack, and a listed data byte. -/
def running : State := stacked ((boot 0x2300).writeByte 0x400 7) [0x202]

/-! ### WellFormed: an ill-formed term for each check, refused (R82 under STRICT_DECODE) -/

theorem smoke_cls : (Instr.cls 1).wellFormed true = false := by decide
theorem smoke_ret : (Instr.ret 1).wellFormed true = false := by decide
theorem smoke_seReg : (Instr.seReg 1 2 3).wellFormed true = false := by decide
theorem smoke_sneReg : (Instr.sneReg 1 2 5).wellFormed true = false := by decide
theorem smoke_accepted : (Instr.cls 1).wellFormed false = true ∧ (Instr.seReg 1 2 0).wellFormed true = true := by decide

/-! ### Decoding: words written out bit by bit from the patterns of R82 and R84 -/

theorem decode_cls : decode true 0b0000_0000_1110_0000#16 = .ok (.cls 0) := by decide
theorem decode_ret : decode true 0b0000_0000_1110_1110#16 = .ok (.ret 0) := by decide
theorem decode_jp : decode true 0b0001_0010_0011_0100#16 = .ok (.jp 0x234) := by decide
theorem decode_call : decode true 0b0010_1010_1011_1100#16 = .ok (.call 0xABC) := by decide
theorem decode_seImm : decode true 0b0011_0011_0001_0000#16 = .ok (.seImm 3 0x10) := by decide
theorem decode_sneImm : decode true 0b0100_0011_0001_0000#16 = .ok (.sneImm 3 0x10) := by decide
theorem decode_seReg : decode true 0b0101_0001_0010_0000#16 = .ok (.seReg 1 2 0) := by decide
theorem decode_ldImm : decode true 0b0110_1010_0000_0010#16 = .ok (.ldImm 0xA 0x02) := by decide
theorem decode_addImm : decode true 0b0111_0010_0000_0011#16 = .ok (.addImm 2 0x03) := by decide
theorem decode_ldReg : decode true 0b1000_0001_0010_0000#16 = .ok (.ldReg 1 2) := by decide
theorem decode_orReg : decode true 0b1000_0001_0010_0001#16 = .ok (.orReg 1 2) := by decide
theorem decode_andReg : decode true 0b1000_0001_0010_0010#16 = .ok (.andReg 1 2) := by decide
theorem decode_xorReg : decode true 0b1000_0001_0010_0011#16 = .ok (.xorReg 1 2) := by decide
theorem decode_addReg : decode true 0b1000_1010_1011_0100#16 = .ok (.addReg 0xA 0xB) := by decide
theorem decode_subReg : decode true 0b1000_0001_0010_0101#16 = .ok (.subReg 1 2) := by decide
theorem decode_shr : decode true 0b1000_0001_0010_0110#16 = .ok (.shr 1 2) := by decide
theorem decode_subn : decode true 0b1000_0001_0010_0111#16 = .ok (.subn 1 2) := by decide
theorem decode_shl : decode true 0b1000_0001_0010_1110#16 = .ok (.shl 1 2) := by decide
theorem decode_sneReg : decode true 0b1001_0001_0010_0000#16 = .ok (.sneReg 1 2 0) := by decide
theorem decode_ldI : decode true 0b1010_0010_1111_0000#16 = .ok (.ldI 0x2F0) := by decide
theorem decode_jpV0 : decode true 0b1011_0011_0000_0001#16 = .ok (.jpV0 0x301) := by decide
theorem decode_rnd : decode true 0b1100_0011_0000_1111#16 = .ok (.rnd 3 0x0F) := by decide
theorem decode_drw : decode true 0b1101_0001_0010_0101#16 = .ok (.drw 1 2 5) := by decide
theorem decode_skp : decode true 0b1110_0001_1001_1110#16 = .ok (.skp 1) := by decide
theorem decode_sknp : decode true 0b1110_0001_1010_0001#16 = .ok (.sknp 1) := by decide
theorem decode_ldVxDT : decode true 0b1111_0001_0000_0111#16 = .ok (.ldVxDT 1) := by decide
theorem decode_ldVxK : decode true 0b1111_0011_0000_1010#16 = .ok (.ldVxK 3) := by decide
theorem decode_ldDTVx : decode true 0b1111_0001_0001_0101#16 = .ok (.ldDTVx 1) := by decide
theorem decode_ldSTVx : decode true 0b1111_0010_0001_1000#16 = .ok (.ldSTVx 2) := by decide
theorem decode_addI : decode true 0b1111_0010_0001_1110#16 = .ok (.addI 2) := by decide
theorem decode_ldF : decode true 0b1111_0100_0010_1001#16 = .ok (.ldF 4) := by decide
theorem decode_ldB : decode true 0b1111_0101_0011_0011#16 = .ok (.ldB 5) := by decide
theorem decode_storeRegs : decode true 0b1111_0010_0101_0101#16 = .ok (.storeRegs 2) := by decide
theorem decode_loadRegs : decode true 0b1111_0010_0110_0101#16 = .ok (.loadRegs 2) := by decide

/-- Illegal words of each family (R85; E6, E9, A41, A42, E10, E11, W3), and ignored bits (C17, C18, C22, E7, E8). -/
theorem decode_illegal :
    ([0x0000, 0x00FF, 0x0123, 0x8008, 0x800F, 0xE19F, 0xF0FF, 0xFFFF] : List Word).all
      (fun op => decide (decode false op = .error (.invalid op))) = true := by decide
theorem decode_ignored_bits :
    decode false 0x5123 = .ok (.seReg 1 2 3) ∧ decode true 0x5123 = .error (.invalid 0x5123) ∧
    decode true 0x9125 = .error (.invalid 0x9125) ∧ decode false 0x01E0 = .ok (.cls 1) ∧
    decode true 0x01E0 = .error (.invalid 0x01E0) := by decide
/-- R62: the byte at the lower address is the high byte. Fewer than two bytes are no instruction (R80). -/
theorem decode_bytes : decodeBytes false [0x6A, 0x02, 0x99] = .ok (.ldImm 0xA 0x02, [0x99]) ∧
    decodeBytes false [0x6A] = .error .truncated := by decide
theorem decode_table_word : decodeTableWord 16 0x8AB4 = some (.addReg 0xA 0xB) ∧ decodeTableWord 16 0xFFFF = none := by
  decide

/-! ### Control transfer -/

/-- C5. -/
theorem step_ret : nextWith (step (stacked (boot 0x00EE) [0x206])) (fun t => t.pc == 0x206 && t.stack == []) := by decide
/-- C6. -/
theorem step_ret_empty : faultWith (step (boot 0x00EE)) (.stackUnderflow 0x00EE) = true := by decide
/-- C1. -/
theorem step_jp : nextWith (step (boot 0x1234)) (fun t => t.pc == 0x234) := by decide
/-- C8: at 0xFFE the pushed address is 0x1000. -/
theorem step_call : nextWith (step ((State.reset.setPC 0xFFE).placeWord 0x2300))
    (fun t => t.pc == 0x300 && t.stack == [0x1000] && t.sp == 1) := by decide
/-- C7. -/
theorem step_call_full : faultWith (step (stacked (boot 0x2300) (List.replicate 16 0x202))) (.stackOverflow 0x2300) = true := by
  decide
/-- C12, C11. -/
theorem step_seImm : nextWith (step (regs (boot 0x3F01) [(VF, 1)])) (fun t => t.pc == 0x204) ∧
    nextWith (step (regs (boot 0x3310) [(3, 0x11)])) (fun t => t.pc == 0x202) := by decide
/-- C13, C14. -/
theorem step_sneImm : nextWith (step (regs (boot 0x4310) [(3, 0x11)])) (fun t => t.pc == 0x204) ∧
    nextWith (step (regs (boot 0x4310) [(3, 0x10)])) (fun t => t.pc == 0x202) := by decide
/-- C17, C16. -/
theorem step_seReg : nextWith (step (regs (boot 0x5123) [(1, 7), (2, 7)])) (fun t => t.pc == 0x204) ∧
    nextWith (step (regs (boot 0x5120) [(1, 7), (2, 8)])) (fun t => t.pc == 0x202) := by decide
/-- C20, C21. -/
theorem step_sneReg : nextWith (step (regs (boot 0x9120) [(1, 7), (2, 8)])) (fun t => t.pc == 0x204) ∧
    nextWith (step (regs (boot 0x9110) [(1, 7)])) (fun t => t.pc == 0x202) := by decide
/-- C25. -/
theorem step_jpV0 : nextWith (step (regs (boot 0xBFFF) [(0, 0xFF)])) (fun t => t.pc == 0x10FE) := by decide
/-- C26. -/
theorem step_jpV0_vx : nextWith (step (regs (bootWith { defaultConfig with jumpWithVX := true } 0xB300) [(0, 4), (3, 2)]))
    (fun t => t.pc == 0x302) := by decide

/-! ### Register arithmetic and logic -/

/-- A1. -/
theorem step_ldImm : nextWith (step (boot 0x6A02)) (fun t => t.readV 0xA == 2 && t.pc == 0x202) := by decide
/-- A2. -/
theorem step_addImm : nextWith (step (regs (boot 0x7203) [(2, 0xFE), (VF, 0x55)]))
    (fun t => t.readV 2 == 1 && t.readV VF == 0x55) := by decide
/-- A4. -/
theorem step_ldReg : nextWith (step (regs (boot 0x8010) [(1, 0x33)])) (fun t => t.readV 0 == 0x33) := by decide
/-- A6, A7. -/
theorem step_orReg : nextWith (step (regs (boot 0x8011) [(0, 0x0F), (1, 0xF0), (VF, 1)]))
      (fun t => t.readV 0 == 0xFF && t.readV VF == 1) ∧
    nextWith (step (regs (bootWith { defaultConfig with logicResetsVF := true } 0x8011) [(0, 0x0F), (1, 0xF0), (VF, 1)]))
      (fun t => t.readV 0 == 0xFF && t.readV VF == 0) := by decide
/-- A8, A9. -/
theorem step_andReg : nextWith (step (regs (boot 0x8012) [(0, 0x3C), (1, 0x0F)])) (fun t => t.readV 0 == 0x0C) ∧
    nextWith (step (regs (bootWith { defaultConfig with logicResetsVF := true } 0x8F12) [(1, 0x3C), (VF, 0xF3)]))
      (fun t => t.readV VF == 0) := by decide
/-- A10. -/
theorem step_xorReg : nextWith (step (regs (boot 0x8013) [(0, 0xFF), (1, 0x0F)])) (fun t => t.readV 0 == 0xF0) := by decide
/-- A17, A18: VF as destination and as source. -/
theorem step_addReg : nextWith (step (regs (boot 0x8F14) [(1, 0xF8), (VF, 0x10)])) (fun t => t.readV VF == 1) ∧
    nextWith (step (regs (boot 0x80F4) [(0, 1), (VF, 0xFF)])) (fun t => t.readV 0 == 0 && t.readV VF == 1) := by decide
/-- A16: the sum 255 gives no carry. -/
theorem step_addReg_no_carry : nextWith (step (regs (boot 0x8014) [(0, 0xFF), (VF, 1)]))
    (fun t => t.readV 0 == 0xFF && t.readV VF == 0) := by decide
/-- A21, A22. -/
theorem step_subReg : nextWith (step (regs (boot 0x8015) [(0, 3), (1, 5), (VF, 1)]))
      (fun t => t.readV 0 == 0xFE && t.readV VF == 0) ∧
    nextWith (step (regs (boot 0x8015) [(0, 5), (1, 5)])) (fun t => t.readV 0 == 0 && t.readV VF == 1) := by decide
/-- A25, A26. -/
theorem step_subn : nextWith (step (regs (boot 0x8017) [(0, 3), (1, 5)])) (fun t => t.readV 0 == 2 && t.readV VF == 1) ∧
    nextWith (step (regs (boot 0x8017) [(0, 5), (1, 3), (VF, 1)])) (fun t => t.readV 0 == 0xFE && t.readV VF == 0) := by
  decide
/-- A32, A31. -/
theorem step_shr : nextWith (step (regs (boot 0x8016) [(0, 0xFF), (1, 4)])) (fun t => t.readV 0 == 0x7F && t.readV VF == 1) ∧
    nextWith (step (regs (bootWith { defaultConfig with shiftSource := .vy } 0x8016) [(0, 0xFF), (1, 4), (VF, 1)]))
      (fun t => t.readV 0 == 2 && t.readV VF == 0) := by decide
/-- A34, A36. -/
theorem step_shl : nextWith (step (regs (boot 0x800E) [(0, 0x81)])) (fun t => t.readV 0 == 2 && t.readV VF == 1) ∧
    nextWith (step (regs (bootWith { defaultConfig with shiftSource := .vy } 0x801E) [(0, 1), (1, 0x80)]))
      (fun t => t.readV 0 == 0 && t.readV VF == 1) := by decide
/-- A38, with the draw 0xA7. -/
theorem rnd_masks : (rndWith 0xA7 3 0x0F State.reset).readV 3 = 7 := by decide
/-- A40: kk = 0 gives 0 whatever the draw; the step does not evaluate it. -/
theorem step_rnd : nextWith (step (regs (boot 0xC300) [(3, 0x55)])) (fun t => t.pc == 0x202 && t.draws == 1) := by decide

/-! ### Index register and memory -/

/-- M1. -/
theorem step_ldI : nextWith (step (boot 0xA2F0)) (fun t => t.i == 0x2F0) := by decide
/-- M4, M5. -/
theorem step_addI : nextWith (step (regs ((boot 0xF21E).setI 0xFFFF) [(2, 2), (VF, 0x33)]))
      (fun t => t.i == 1 && t.readV VF == 0x33) ∧
    nextWith (step (regs ((boot 0xF21E).setI 0x0FFF) [(2, 1)])) (fun t => t.i == 0x1000) := by decide
/-- M7. -/
theorem step_ldF : nextWith (step (regs (boot 0xF429) [(4, 0x1A)])) (fun t => t.i == 0x82) := by decide
/-- M8. -/
theorem step_ldF_base : nextWith (step (regs (bootWith { defaultConfig with fontBase := ⟨0, by decide⟩ } 0xF429) [(4, 7)]))
    (fun t => t.i == 0x23) := by decide
/-- M12: the third digit wraps to 0x000. -/
theorem step_ldB : nextWith (step (regs ((boot 0xF033).setI 0xFFE) [(0, 0x7B)]))
    (fun t => t.readByte 0xFFE == 1 && t.readByte 0xFFF == 2 && t.readByte 0 == 3 && t.readByte 1 == 0) := by decide
/-- M16: the block wraps. -/
theorem step_storeRegs : nextWith (step (regs ((boot 0xF155).setI 0xFFF) [(0, 0xAA), (1, 0xBB), (2, 0xCC)]))
    (fun t => t.readByte 0xFFF == 0xAA && t.readByte 0 == 0xBB && t.readByte 1 == 0 && t.i == 0xFFF) := by decide
/-- M14. -/
theorem step_storeRegs_increment :
    nextWith (step (regs ((bootWith { defaultConfig with loadStoreIncrementsI := true } 0xF255).setI 0x400) [(0, 1), (2, 3)]))
      (fun t => t.i == 0x403 && t.readByte 0x402 == 3) := by decide
/-- M18: glyph 0 of the font, read from the reset contents of memory; V5 keeps its value. -/
theorem step_loadRegs : nextWith (step (regs ((boot 0xF465).setI 0x50) [(5, 0x99)]))
    (fun t => t.readV 0 == 0xF0 && t.readV 1 == 0x90 && t.readV 4 == 0xF0 && t.readV 5 == 0x99 && t.i == 0x50) := by decide
/-- M21. -/
theorem step_loadRegs_wraps :
    nextWith (step (((boot 0xF165).writeByte 0 0x22).writeByte 0xFFF 0x11 |>.setI 0x1FFF))
      (fun t => t.readV 0 == 0x11 && t.readV 1 == 0x22) := by decide

/-! ### Display -/

/-- D1. -/
theorem step_cls : nextWith (step (regs ((boot 0x00E0).setDisp (onePixel 31 63)) [(VF, 1)]))
    (fun t => t.disp == Display.clear && t.readV VF == 1) := by decide
/-- D6: columns past 63 are dropped. -/
theorem step_drw_column_clip :
    nextWith (step (regs (((boot 0xD011).writeByte 0x300 0xFF).setI 0x300 |>.setDisp (onePixel 0 0)) [(0, 0x3F)]))
      (fun t => t.pixel 0 63 && t.pixel 0 0 && !t.pixel 0 1 && t.readV VF == 0) := by decide
/-- D7: rows past 31 wrap. -/
theorem step_drw_row_wrap :
    nextWith (step (regs (((boot 0xD012).writeByte 0x300 0xFF).writeByte 0x301 0x81 |>.setI 0x300) [(1, 0x1F)]))
      (fun t => t.disp[0] == 0x81#64 && t.disp[31] == 0xFF#64 && t.disp[1] == 0#64) := by decide
/-- D8: with CLIP they are dropped. -/
theorem step_drw_row_clip :
    nextWith (step (regs (((bootWith { defaultConfig with drwRowEdge := .clip } 0xD012).writeByte 0x300 0xFF).writeByte 0x301 0x81
      |>.setI 0x300) [(1, 0x1F)])) (fun t => t.disp[0] == 0#64 && t.disp[31] == 0xFF#64) := by decide
/-- D11: bit 4 is column X0 + 3, and the collision. -/
theorem step_drw_collision :
    nextWith (step (((boot 0xD011).writeByte 0x300 0x10).setI 0x300 |>.setDisp (onePixel 0 3)))
      (fun t => t.disp == Display.clear && t.readV VF == 1) := by decide
/-- D13: with x = F, X0 is read from VF before VF is written. -/
theorem step_drw_vf : nextWith (step (regs (((boot 0xDF11).writeByte 0x300 0xC0).setI 0x300) [(VF, 5)]))
    (fun t => t.pixel 0 5 && t.pixel 0 6 && !t.pixel 0 7 && t.readV VF == 0) := by decide

/-! ### Input and timers -/

/-- K3, K2. -/
theorem step_skp : nextWith (step (regs ((boot 0xE19E).setKey 5 true) [(1, 0x15)])) (fun t => t.pc == 0x204) ∧
    nextWith (step (regs (boot 0xE19E) [(1, 5)])) (fun t => t.pc == 0x202) := by decide
/-- K4, K5. -/
theorem step_sknp : nextWith (step (regs (boot 0xE1A1) [(1, 5)])) (fun t => t.pc == 0x204) ∧
    nextWith (step (regs ((boot 0xE1A1).setKey 5 true) [(1, 5)])) (fun t => t.pc == 0x202) := by decide
/-- K6. -/
theorem step_ldVxK : nextWith (step (boot 0xF30A))
    (fun t => t.pc == 0x200 && t.wait == some ⟨3, Vector.replicate 16 false⟩) := by decide
/-- The last step of K10: of two new keys the lowest wins. -/
theorem step_poll : nextWith (step (((boot 0xF30A).setWait (some ⟨3, Vector.replicate 16 false⟩)).setKey 9 true |>.setKey 4 true))
    (fun t => t.readV 3 == 4 && t.pc == 0x202 && t.wait == none) := by decide
/-- K13. -/
theorem step_ldVxDT : nextWith (step ((boot 0xF107).setDT 60)) (fun t => t.readV 1 == 0x3C && t.dt == 60) := by decide
/-- K14. -/
theorem step_ldDTVx : nextWith (step (regs (boot 0xF115) [(1, 0x3C)])) (fun t => t.dt == 60 && t.st == 0) := by decide
/-- K15. -/
theorem step_ldSTVx : nextWith (step (regs (boot 0xF218) [(2, 2)])) (fun t => t.st == 2 && t.dt == 0 && t.soundActive) := by
  decide
/-- K18, K19. -/
theorem tick_floors : ((State.reset.setDT 2).setST 1).tick.dt = 1 ∧ ((State.reset.setDT 2).setST 1).tick.st = 0 ∧
    (((State.reset.setDT 2).setST 1).ticks 3).dt = 0 := by decide

/-! ### The core cycle and the host -/

/-- E3, E13: the fetch bound comes before the decode. -/
theorem step_fetch_bound : faultWith (step ((State.reset.setPC 0xFFF).writeByte 0xFFF 0xFF)) (.memoryFault 0xFFF) = true := by decide
/-- E4: 0xFFE is the last address a fetch can start at. -/
theorem step_last_fetch : nextWith (step ((State.reset.setPC 0xFFE).placeWord 0x6A07))
    (fun t => t.readV 0xA == 7 && t.pc == 0x1000) := by decide
/-- C28: an odd PC. -/
theorem step_odd_pc : nextWith (step ((State.reset.setPC 0x201).placeWord 0x6A07)) (fun t => t.pc == 0x203) := by decide
/-- E1: the word is the error's value. -/
theorem step_invalid : faultWith (step (regs (boot 0xFFFF) [(0, 1)])) (.invalidOpcode 0xFFFF) = true := by decide
/-- A run from `s` that may be performed ends in a session with `p`. -/
def runWith (l : List HostAction) (s : State) (p : Session → Bool) : Bool :=
  match runHost l { machine := s } with
  | some k => p k
  | none => false

/-- A machine whose policy is `skip`, with FFFF at 0x200. -/
def skipper : State := bootWith { defaultConfig with invalidOpcodePolicy := .skip } 0xFFFF

/-- E5: the policy `skip`; and a load and a tick may fall between the error and the skip (R273). -/
theorem host_skip : runWith [.step, .skipInvalid] skipper (fun k => k.machine.pc == 0x202 && k.error == none) ∧
    runWith [.step, .loadRom [0x12], .tick, .skipInvalid] skipper
      (fun k => k.machine.pc == 0x202 && k.machine.readByte 0x200 == 0x12) := by decide
/-- `skip_invalid` is no action before an error, a second time, or under `halt`, and nothing follows an abort (R273). -/
theorem host_skip_refused : runHost [.skipInvalid] { machine := skipper } = none ∧
    runHost [.step, .skipInvalid, .skipInvalid] { machine := skipper } = none ∧
    runHost [.step, .skipInvalid] { machine := boot 0xFFFF } = none ∧
    runHost [.abort, .tick] { machine := skipper } = none := ⟨rfl, rfl, rfl, rfl⟩
/-- R277, R261: under `halt` the error ends the run; no load and no step follow, and a reset alone may be performed. -/
theorem host_ended : runWith [.step] (boot 0xFFFF) (fun k => k.ended && k.machine.pc == 0x200) ∧
    runHost [.step, .loadRom [0x12, 0x00]] { machine := boot 0xFFFF } = none ∧
    HostAction.step.apply ⟨boot 0xFFFF, some (.invalidOpcode 0xFFFF), false⟩ = none ∧
    (HostAction.reset.apply ⟨boot 0xFFFF, some (.invalidOpcode 0xFFFF), false⟩).isSome = true :=
  ⟨by decide, rfl, rfl, rfl⟩
/-- R261: a load between an InvalidOpcode and its skip does not let a step run at the same PC. -/
theorem host_no_third_way : runHost [.step, .loadRom [0x60, 0x00], .step] { machine := skipper } = none := rfl
/-- R277, R297: a run from a reset state with W1's ROM loaded, and its first steps. -/
theorem run_from_rom : (match runFrom running [0x6A, 0x02, 0x6B, 0x03, 0x8A, 0xB4] [.step, .step, .step] with
    | some k => k.machine.readV 0xA == 5 && k.machine.readV VF == 0 && k.machine.pc == 0x206 && k.machine.stack == []
    | none => false) = true := by decide
/-- `withFetchWord` places the word that the next step runs, also where PC can fetch nothing. -/
theorem withFetchWord_runs : nextWith (step (State.reset.withFetchWord 16 0x6A02)) (fun t => t.readV 0xA == 2) ∧
    nextWith (step ((State.reset.setPC 0xFFF).withFetchWord 16 0x1234)) (fun t => t.pc == 0x234) := by decide
/-- R41: the first and the last byte of the font, and the bytes beside it. -/
theorem reset_font : State.reset.readByte 0x050 = 0xF0 ∧ State.reset.readByte 0x09F = 0x80 ∧
    State.reset.readByte 0x04F = 0 ∧ State.reset.readByte 0x0A0 = 0 := by decide
/-- The canonical form: a byte written back to its reset value leaves no entry. -/
theorem write_back : ((State.reset.writeByte 0x300 7).writeByte 0x050 1 |>.writeByte 0x300 0).mem = [(0x050, 1)] := by decide

/-! ### Witnesses: a concrete state and operands that meet all hypotheses of a statement together, for each clause -/

/-- A pending wait of V3 that has seen key 2 pressed. -/
def waiting : State := ((boot 0xF30A).setKey 2 true).setWait (some ⟨3, (Vector.replicate 16 false).set 2 true⟩)

theorem boot_memWf (op : Word) : (boot op).memWf :=
  writeBytes_memWf [highByte op, lowByte op] (resetWith_memWf defaultConfig) State.reset.pc.toNat

theorem running_inv : running.Inv where
  mem_canonical := by
    have h : ((boot 0x2300).writeByte 0x400 7).memWf := writeByte_memWf (boot_memWf _) _ _
    exact h
  stack_depth := by decide
  stack_entries := by simp [running, stacked]
  pc_range := by
    have h : running.pc = 0x200 := rfl
    rw [h]; decide
  wait_pc := fun h => absurd rfl h

theorem witness_ResetHoldsSpecifiedValues : (0x04F#12).toNat < defaultConfig.fontBase.val ∧
    defaultConfig.fontBase.val + 80 ≤ (0x0A0#12).toNat := by decide
theorem witness_StepKeepsInvariant : running.Inv ∧ ∃ t, step running = .next t := ⟨running_inv, _, rfl⟩
theorem witness_HostRunKeepsInvariant : (Session.mk running none false).Inv ∧
    ∃ k, runHost [.tick, .setKey 4 true, .step, .loadRom [0x12, 0x00], .snapshot, .reset, .abort] ⟨running, none, false⟩ = some k :=
  ⟨⟨running_inv, fun _ h => by cases h⟩, _, rfl⟩
theorem witness_HostRunKeepsInvariant_run : ∃ k, runFrom running [0x12, 0x00] [.step, .tick] = some k := ⟨_, rfl⟩
/-- The clause of `Session.Inv` about an InvalidOpcode. -/
theorem witness_HostRunKeepsInvariant_skip : (boot 0xFFFF).wait = none ∧ (boot 0xFFFF).pc.toNat + 1 < memSize ∧
    ∃ k, runHost [.skipInvalid] ⟨skipper, some (.invalidOpcode 0xFFFF), false⟩ = some k := ⟨rfl, by decide, _, rfl⟩
theorem witness_StepKeepsComponentRanges :
    (stacked (boot 0xF30A) (List.replicate 16 0x202)).stack.length ≤ 16 ∧
    ∃ t, step (stacked (boot 0xF30A) (List.replicate 16 0x202)) = .next t ∧ ∃ w, t.wait = some w :=
  ⟨by decide, _, rfl, _, rfl⟩
theorem witness_DecodeOfEncode : (Instr.drw 0xF 0 15).wellFormed true = true ∧ (Instr.cls 0xF).wellFormed false = true := by
  decide
theorem witness_EncodeOfDecode : decode true 0xFF65 = .ok (.loadRegs 0xF) ∧ decode false 0x0FEE = .ok (.ret 0xF) := by
  decide
theorem witness_StrictDecodeDropsNonzeroIgnoredBits : (0x0FE0#16).toNat / 4096 = 0 ∧ (0x9121#16).toNat / 4096 = 9 := by
  decide
theorem witness_IgnoredBitsDoNotChangeTheEffect : running.stack ≠ [] := by decide
theorem witness_StepRunsDecodedInstruction_wait : waiting.wait = some ⟨3, (Vector.replicate 16 false).set 2 true⟩ := rfl
theorem witness_StepRunsDecodedInstruction_bound :
    (State.reset.setPC 0xFFF).wait = none ∧ 4096 ≤ (State.reset.setPC 0xFFF).pc.toNat + 1 := by decide
theorem witness_StepRunsDecodedInstruction_ok : ((State.reset.setPC 0xFFE).placeWord 0x6A07).wait = none ∧
    ((State.reset.setPC 0xFFE).placeWord 0x6A07).pc.toNat + 1 < 4096 ∧
    (0x6A07#16).toNat = (((State.reset.setPC 0xFFE).placeWord 0x6A07).readByte (BitVec.ofNat 12 0xFFE)).toNat * 256 +
      (((State.reset.setPC 0xFFE).placeWord 0x6A07).readByte (BitVec.ofNat 12 (0xFFE + 1))).toNat ∧
    decode false 0x6A07 = .ok (.ldImm 0xA 7) := by decide
theorem witness_StepRunsDecodedInstruction_error : (boot 0x00FF).wait = none ∧ (boot 0x00FF).pc.toNat + 1 < 4096 ∧
    (0x00FF#16).toNat = ((boot 0x00FF).readByte 0x200).toNat * 256 + ((boot 0x00FF).readByte 0x201).toNat ∧
    decode false 0x00FF = .error (.invalid 0x00FF) := by decide
theorem witness_FaultsInPriorityOrder_stack :
    (stacked (boot 0x2300) (List.replicate 16 0x202)).fetchWord = .ok 0x2300 ∧
    decode false 0x2300 = .ok (.call 0x300) ∧ 16 ≤ (List.replicate 16 (0x202#16)).length ∧
    (boot 0x00EE).fetchWord = .ok 0x00EE ∧ decode false 0x00EE = .ok (.ret 0) ∧ (boot 0x00EE).stack = [] :=
  ⟨rfl, rfl, by decide, rfl, rfl, rfl⟩
theorem witness_PollTakesLowestNewPress_press : (waiting.setKey 9 true).wait = waiting.wait ∧
    newPress ((Vector.replicate 16 false).set 2 true) (waiting.setKey 9 true).keys 9 ∧
    ∀ j, newPress ((Vector.replicate 16 false).set 2 true) (waiting.setKey 9 true).keys j → 9 ≤ j := by
  unfold newPress; decide
theorem witness_PollTakesLowestNewPress_hold : ∀ k, ¬newPress ((Vector.replicate 16 false).set 2 true) waiting.keys k := by
  unfold newPress; decide
theorem witness_PendingWaitFetchesNothing : ∃ w, waiting.wait = some w := ⟨_, rfl⟩
theorem witness_WaitHoldsWithoutNewPress : ∃ w, waiting.wait = some w ∧ ∀ k, ¬newPress w.seen waiting.keys k :=
  ⟨_, rfl, witness_PollTakesLowestNewPress_hold⟩
theorem witness_NewPressEndsTheWait :
    waiting.wait = some ⟨3, (Vector.replicate 16 false).set 2 true⟩ ∧ ((Vector.replicate 16 false).set 2 true)[15] = false := by
  decide
theorem witness_RetPopsIntoPC : (stacked State.reset [0x202, 0x1000]).stack = [0x202] ++ [0x1000] ∧
    State.reset.stack = [] := by decide
theorem witness_CallPushesReturnAddress : (stacked State.reset (List.replicate 15 0x202)).stack.length < 16 ∧
    (stacked State.reset (List.replicate 16 0x202)).stack.length = 16 := by decide
theorem witness_CallThenRetRoundTrip : running.stack.length < 16 ∧ ∃ t u : State, exec (.call 0x300) running = .next t ∧
    u.stack = t.stack ∧ u.pc = 0x302 := ⟨by decide, _, stacked (State.reset.setPC 0x302) [0x202, 0x202], rfl, rfl, rfl⟩
theorem witness_JpV0AddsRegister : (0 : RegIdx).val = (if defaultConfig.jumpWithVX then (0xF34#12).toNat / 256 else 0) ∧
    (15 : RegIdx).val =
      (if ({ defaultConfig with jumpWithVX := true } : Config).jumpWithVX then (0xF34#12).toNat / 256 else 0) := by decide
theorem witness_LogicOperations : (Instr.xorReg VF 0 = .xorReg VF 0 ∧ (0x0F#8) = (0x0F#8) ^^^ (0x00#8)) ∧
    State.reset.config.logicResetsVF = false ∧
    (State.resetWith { defaultConfig with logicResetsVF := true }).config.logicResetsVF = true := by decide
theorem witness_ShiftsByOne : 0x81 = (if State.reset.config.shiftSource = .vy then (regs State.reset [(0, 0x81)]).readV 1
    else (regs State.reset [(0, 0x81)]).readV 0).toNat := by decide
theorem witness_StoreRegsWritesBlock : (15 : RegIdx) ≤ 15 ∧
    (State.resetWith { defaultConfig with loadStoreIncrementsI := true }).config.loadStoreIncrementsI = true := by decide
theorem witness_LoadRegsReadsBlock : (0 : RegIdx) ≤ 0 ∧
    (State.resetWith { defaultConfig with loadStoreIncrementsI := true }).config.loadStoreIncrementsI = true := by decide
theorem witness_StoredWordIsFetched : 1 ≤ (1 : RegIdx).val ∧ ((State.reset.setI 0xFFE).dataAddr 0).toNat + 1 < 4096 ∧
    ∃ t u : State, exec (.storeRegs 1) (State.reset.setI 0xFFE) = .next t ∧ u.mem = t.mem ∧ u.config = t.config ∧
      u.pc.toNat = ((State.reset.setI 0xFFE).dataAddr 0).toNat :=
  ⟨by decide, by decide, _, State.reset.setPC 0xFFE, rfl, rfl, rfl, rfl⟩

/-- A sprite byte 0xFF at 0x300 and X0 = 60, with pixel (0, 63) on. -/
def spriteReady : State :=
  regs (((boot 0xD011).writeByte 0x300 0xFF).setI 0x300 |>.setDisp (onePixel 0 63)) [(0, 60)]

theorem witness_DrwTogglesCoveredPixels : spriteReady.spriteCovers 0 1 1 0 63 ∧ spriteReady.pixel 0 63 = true :=
  ⟨⟨0, 3, by decide, by decide, by decide, by decide, by decide, by decide⟩, by decide⟩
theorem witness_DrwTogglesCoveredPixels_other : ¬spriteReady.spriteCovers 0 1 1 1 63 := by
  rintro ⟨r, j, hr, -, -, hrow, -, -⟩
  have h0 : r = 0 := by simpa using hr
  subst h0
  exact absurd hrow (by decide)
theorem witness_DoubleDrawRestoresBuffer : ∃ t, exec (.drw 0 1 1) spriteReady = .next t ∧ ∃ u : State, u.disp = t.disp ∧
    u.config = spriteReady.config ∧ u.readV 0 = spriteReady.readV 0 ∧ u.readV 1 = spriteReady.readV 1 ∧
    ∀ r, r < (1 : Fin 16).val → u.readByte (u.dataAddr r) = spriteReady.readByte (spriteReady.dataAddr r) :=
  ⟨_, rfl, _, rfl, rfl, rfl, rfl, fun _ _ => rfl⟩
theorem witness_OnlyDisplayInstructionsTouchDisplay : (∃ t, exec (.cls 0) spriteReady = .next t ∧ t.disp ≠ spriteReady.disp) ∧
    ∃ t, exec (.addReg 0 1) spriteReady = .next t := ⟨⟨_, rfl, by decide⟩, _, rfl⟩
theorem witness_SkipsOnKey : (15 : KeyIdx).val = ((regs State.reset [(0, 0xFF)]).readV 0).toNat % 16 := by decide
theorem witness_LdKBeginsWait : State.reset.key 15 = false := by decide
theorem witness_TimerReadersAndWriters : (∃ t, exec (.ldVxDT 1) running = .next t) ∧
    (∃ t, exec (.ldDTVx 0) (running.setDT 9) = .next t ∧ t.dt ≠ (running.setDT 9).dt) ∧
    (∃ t, exec (.ldSTVx 0) (running.setST 9) = .next t ∧ t.st ≠ (running.setST 9).st) ∧
    ∃ k, HostAction.tick.apply ⟨running.setDT 9, none, false⟩ = some k ∧ k.machine.dt ≠ (running.setDT 9).dt :=
  ⟨⟨_, rfl⟩, ⟨_, rfl, by decide⟩, ⟨_, rfl, by decide⟩, ⟨_, rfl, by decide⟩⟩
theorem witness_SetKeyWritesOneKey : (3 : KeyIdx) ≠ 15 := by decide
theorem witness_LoadRomWritesImage : (List.replicate 3584 (0x12#8)).length ≤ 3584 ∧
    3584 < (List.replicate 3585 (0x12#8)).length := by
  simp only [List.length_replicate]; decide
theorem witness_HostAnswersErrorsByPolicy : faultWith (step skipper) (.invalidOpcode 0xFFFF) = true ∧
    skipper.config.invalidOpcodePolicy = .skip ∧
    faultWith (step (boot 0xFFFF)) (.invalidOpcode 0xFFFF) = true ∧ (boot 0xFFFF).config.invalidOpcodePolicy = .halt ∧
    faultWith (step (bootWith skipper.config 0x00EE)) (.stackUnderflow 0x00EE) = true := by decide
theorem witness_HostAnswersErrorsByPolicy_sessions : (Session.mk skipper none false).ended = false ∧
    (Session.mk (boot 0xFFFF) (some (.invalidOpcode 0xFFFF)) false).ended = true ∧
    (∃ k, HostAction.reset.apply ⟨boot 0xFFFF, some (.invalidOpcode 0xFFFF), false⟩ = some k ∧ k.error = none) ∧
    ∃ k, HostAction.skipInvalid.apply ⟨skipper, some (.invalidOpcode 0xFFFF), false⟩ = some k ∧ k.error = none :=
  ⟨rfl, rfl, ⟨_, rfl, rfl⟩, _, rfl, rfl⟩
/-- Ticks with a step, a key and a load between them, and DT written by nothing: DT goes from 2 to 0. -/
theorem witness_TicksReachZero :
    ∃ k, runHost [.tick, .step, .setKey 1 true, .tick, .loadRom [0x60], .tick] ⟨(boot 0x6A02).setDT 2, none, false⟩ = some k ∧
      k.machine.dt = 0 ∧ HostAction.reset ∉ [.tick, .step, .setKey 1 true, .tick, .loadRom [0x60], .tick] ∧
      instrsOfRun [.tick, .step, .setKey 1 true, .tick, .loadRom [0x60], .tick] ⟨(boot 0x6A02).setDT 2, none, false⟩ =
        [.ldImm 0xA 0x02] := ⟨_, rfl, rfl, by decide, rfl⟩
theorem witness_InstructionsWriteOnlyTheirRow : ∃ t, exec (.ldB 0) running = .next t := ⟨_, rfl⟩
theorem witness_PcUpdateFollowsClass : (∃ t, exec (.jpV0 0xFFF) running = .next t) ∧ pcClassOf (.jpV0 0xFFF) = .jump ∧
    (∃ t, exec (.ret 0) running = .next t) ∧ pcClassOf (.ldVxK 3) = .wait ∧ waiting.wait ≠ none :=
  ⟨⟨_, rfl⟩, by decide, ⟨_, rfl⟩, by decide, by decide⟩
theorem witness_KeysAndParametersAreReadOnly : (∃ t, step waiting = .next t) ∧
    ∃ k, runHost [.step, .reset] ⟨waiting, none, false⟩ = some k := ⟨⟨_, rfl⟩, _, rfl⟩

end Sys2Proof.Tests
end

section
/-! Family 10_state: the frame of every instruction (R23), the machine's invariant (R26, R40, R115), the component
ranges (R40) and the reset values (R38). -/

namespace Sys2Proof.Machine

/-! ### The frame relation is kept by every state operation

Each lemma extends a frame by one operation; an instruction's frame is its meaning read as a chain of them. -/

namespace ChangesOnly

variable {w : Writes} {s t : State}

theorem refl (w : Writes) (s : State) : ChangesOnly w s s where
  regs _ _ := rfl
  mem _ _ := rfl
  i _ := rfl
  stack _ := rfl
  dt _ := rfl
  st _ := rfl
  disp _ := rfl
  keys _ := rfl
  wait _ := rfl
  draws _ := rfl
  config := rfl

theorem setPC (h : ChangesOnly w s t) (p : Word) : ChangesOnly w s (t.setPC p) := { h with }

theorem advance (h : ChangesOnly w s t) : ChangesOnly w s t.advance := h.setPC _

theorem skipIf (h : ChangesOnly w s t) (c : Bool) : ChangesOnly w s (t.skipIf c) := h.setPC _

theorem writeV (h : ChangesOnly w s t) {x : RegIdx} (hx : w.regs x = true) (b : Byte) :
    ChangesOnly w s (t.writeV x b) :=
  { h with
    regs := fun r hr => by
      have hne : r ≠ x := by rintro rfl; simp [hx] at hr
      rw [readV_writeV, if_neg hne, h.regs r hr] }

theorem writeByte (h : ChangesOnly w s t) {a : Addr} (ha : w.mem a = true) (b : Byte) :
    ChangesOnly w s (t.writeByte a b) :=
  { h with
    mem := fun a' ha' => by
      have hne : a' ≠ a := by rintro rfl; simp [ha] at ha'
      rw [readByte_writeByte, if_neg hne, h.mem a' ha'] }

theorem writeData (h : ChangesOnly w s t) {k : Nat} (hk : w.mem (t.dataAddr k) = true) (b : Byte) :
    ChangesOnly w s (t.writeData k b) := h.writeByte hk b

theorem setI (h : ChangesOnly w s t) (hi : w.i = true) (x : Word) : ChangesOnly w s (t.setI x) :=
  { h with i := by simp [hi] }

theorem setStack (h : ChangesOnly w s t) (hs : w.stack = true) (l : List Word) :
    ChangesOnly w s { t with stack := l } :=
  { h with stack := by simp [hs] }

theorem setDT (h : ChangesOnly w s t) (hd : w.dt = true) (b : Byte) : ChangesOnly w s (t.setDT b) :=
  { h with dt := by simp [hd] }

theorem setST (h : ChangesOnly w s t) (hd : w.st = true) (b : Byte) : ChangesOnly w s (t.setST b) :=
  { h with st := by simp [hd] }

theorem setDisp (h : ChangesOnly w s t) (hd : w.disp = true) (d : Display) : ChangesOnly w s (t.setDisp d) :=
  { h with disp := by simp [hd] }

theorem setWait (h : ChangesOnly w s t) (hw : w.wait = true) (k : Option KeyWait) : ChangesOnly w s (t.setWait k) :=
  { h with wait := by simp [hw] }

theorem countDraw (h : ChangesOnly w s t) (hd : w.draws = true) : ChangesOnly w s t.countDraw :=
  { h with draws := by simp [hd] }

theorem writeResultFlag (h : ChangesOnly w s t) {x : RegIdx} (hx : w.regs x = true) (hf : w.regs VF = true)
    (b f : Byte) : ChangesOnly w s (t.writeResultFlag x b f) := (h.writeV hx b).writeV hf f

theorem logicReset (h : ChangesOnly w s t) (hf : t.config.logicResetsVF = true → w.regs VF = true) :
    ChangesOnly w s t.logicReset := by
  unfold State.logicReset
  split
  · exact h.writeV (hf ‹_›) 0
  · exact h

theorem blockIncrement (h : ChangesOnly w s t) (hi : t.config.loadStoreIncrementsI = true → w.i = true) (x : RegIdx) :
    ChangesOnly w s (t.blockIncrement x) := by
  unfold State.blockIncrement
  split
  · exact h.setI (hi ‹_›) _
  · exact h

theorem storeBlock (h : ChangesOnly w s t) {ks : List RegIdx} (hk : ∀ k ∈ ks, w.mem (t.dataAddr k.val) = true) :
    ChangesOnly w s (t.storeBlock ks) := by
  induction ks generalizing t with
  | nil => exact h
  | cons k ks ih =>
    exact ih (h.writeData (hk k List.mem_cons_self) _) fun j hj => hk j (List.mem_cons_of_mem k hj)

theorem loadBlock (h : ChangesOnly w s t) {ks : List RegIdx} (hk : ∀ k ∈ ks, w.regs k = true) :
    ChangesOnly w s (t.loadBlock ks) := by
  induction ks generalizing t with
  | nil => exact h
  | cons k ks ih =>
    exact ih (h.writeV (hk k List.mem_cons_self) _) fun j hj => hk j (List.mem_cons_of_mem k hj)

end ChangesOnly

/-! ### Which registers and bytes the rows of R23 name -/

theorem only_self (x : RegIdx) : only x x = true := by simp [only]

theorem onlyAndVF_self (x : RegIdx) : onlyAndVF x x = true := by simp [onlyAndVF]

theorem onlyAndVF_VF (x : RegIdx) : onlyAndVF x VF = true := by simp [onlyAndVF]

theorem logicRegs_self (s : State) (x : RegIdx) : s.logicRegs x x = true := by
  unfold State.logicRegs
  split
  · exact onlyAndVF_self x
  · exact only_self x

theorem logicRegs_VF {s : State} (h : s.config.logicResetsVF = true) (x : RegIdx) : s.logicRegs x VF = true := by
  rw [State.logicRegs, if_pos h]
  exact onlyAndVF_VF x

theorem blockAddrs_of_mem {x k : RegIdx} (s : State) (h : k ∈ regsUpTo x) : s.blockAddrs x (s.dataAddr k.val) = true :=
  List.any_eq_true.mpr ⟨k, h, beq_self_eq_true _⟩

theorem bcdAddrs_eq_true (s : State) (a : Addr) :
    s.bcdAddrs a = true ↔ a = s.dataAddr 0 ∨ a = s.dataAddr 1 ∨ a = s.dataAddr 2 := by
  simp [State.bcdAddrs, or_assoc]

/-! ### What RET and CALL can do (R131, R133) -/

theorem execRet_next {ign : Nibble} {s t : State} (h : execRet ign s = .next t) :
    ∃ rest w, s.stack = rest ++ [w] ∧ t = { s with stack := rest }.setPC w := by
  rcases List.eq_nil_or_concat' s.stack with hs | ⟨rest, w, hs⟩
  · simp [execRet, pop_eq_none hs, raise] at h
  · simp only [execRet, pop_eq_some hs, Host.Outcome.next.injEq] at h
    exact ⟨rest, w, hs, h.symm⟩

theorem execCall_next {nnn : Addr} {s t : State} (h : execCall nnn s = .next t) :
    s.stack.length < stackDepth ∧ t = { s with stack := s.stack ++ [s.pc + 2] }.setPC (zextAddr nnn) := by
  rcases Nat.lt_or_ge s.stack.length stackDepth with hs | hs
  · simp only [execCall, push_eq_some hs, Host.Outcome.next.injEq] at h
    exact ⟨hs, h.symm⟩
  · simp [execCall, push_eq_none hs, raise] at h

/-! ### The frame of every instruction (R23) and of the poll (R224) -/

theorem exec_changesOnly {i : Instr} {s t : State} (h : exec i s = .next t) : ChangesOnly (writesOf i s) s t := by
  have start := ChangesOnly.refl (writesOf i s) s
  cases i
  case cls _ => cases h; exact (start.setDisp rfl _).advance
  case ret _ =>
    obtain ⟨rest, a, -, rfl⟩ := execRet_next h
    exact (start.setStack rfl rest).setPC a
  case call _ =>
    obtain ⟨-, rfl⟩ := execCall_next h
    exact (start.setStack rfl _).setPC _
  case jp _ | jpV0 _ => cases h; exact start.setPC _
  case seImm _ _ | sneImm _ _ | seReg _ _ _ | sneReg _ _ _ | skp _ | sknp _ => cases h; exact start.skipIf _
  case ldImm x _ | addImm x _ | ldReg x _ | ldVxDT x => cases h; exact (start.writeV (only_self x) _).advance
  case orReg x _ | andReg x _ | xorReg x _ =>
    cases h
    exact ((start.writeV (logicRegs_self s x) _).logicReset (logicRegs_VF · x)).advance
  case addReg x _ | subReg x _ | shr x _ | subn x _ | shl x _ =>
    cases h
    exact (start.writeResultFlag (onlyAndVF_self x) (onlyAndVF_VF x) _ _).advance
  case ldI _ | addI _ | ldF _ => cases h; exact (start.setI rfl _).advance
  case rnd x _ => cases h; exact ((start.writeV (only_self x) _).countDraw rfl).advance
  case drw _ _ _ => cases h; exact ((start.setDisp rfl _).writeV (only_self VF) _).advance
  case ldVxK _ => cases h; exact start.setWait rfl _
  case ldDTVx _ => cases h; exact (start.setDT rfl _).advance
  case ldSTVx _ => cases h; exact (start.setST rfl _).advance
  case ldB _ =>
    cases h
    have hbcd := fun a => (bcdAddrs_eq_true s a).mpr
    exact (((start.writeData (hbcd _ (.inl rfl)) _).writeData (hbcd _ (.inr (.inl rfl))) _).writeData
      (hbcd _ (.inr (.inr rfl))) _).advance
  case storeRegs x =>
    cases h
    refine ((start.storeBlock fun k hk => blockAddrs_of_mem s hk).blockIncrement (fun hc => ?_) x).advance
    rwa [storeBlock_config] at hc
  case loadRegs x =>
    cases h
    refine ((start.loadBlock fun k hk => decide_eq_true ((mem_regsUpTo x k).mp hk)).blockIncrement (fun hc => ?_) x).advance
    rwa [loadBlock_config] at hc

theorem keyWaitPoll_changesOnly (s : State) (k : KeyWait) :
    ChangesOnly { regs := only k.dest, wait := true } s (s.keyWaitPoll k) := by
  have start := ChangesOnly.refl { regs := only k.dest, wait := true } s
  rcases keyWaitPoll_cases s k with ⟨key, -, hp⟩ | ⟨-, hp⟩ <;> rw [hp]
  · exact ((start.writeV (only_self k.dest) _).setWait rfl _).advance
  · exact start.setWait rfl _

theorem writesOf_keys (i : Instr) (s : State) : (writesOf i s).keys = false := by
  cases i <;> rfl

/-- Keys and parameters are read-only to a step (R32, R37). -/
theorem step_changesOnly {s t : State} (h : step s = .next t) : ∃ w : Writes, w.keys = false ∧ ChangesOnly w s t := by
  rcases step_next_cases h with ⟨k, -, rfl⟩ | ⟨-, i, -, hi⟩
  · exact ⟨_, rfl, keyWaitPoll_changesOnly s k⟩
  · exact ⟨_, writesOf_keys i s, exec_changesOnly hi⟩

theorem step_keys {s t : State} (h : step s = .next t) : t.keys = s.keys := by
  obtain ⟨w, hk, hw⟩ := step_changesOnly h
  exact hw.keys hk

theorem step_config {s t : State} (h : step s = .next t) : t.config = s.config := by
  obtain ⟨w, -, hw⟩ := step_changesOnly h
  exact hw.config

/-! ### What an instruction does to the stack, the wait, the memory and PC -/

/-- Only RET and CALL change the stack, by one entry at its top (R26). -/
theorem exec_stack_cases {i : Instr} {s t : State} (h : exec i s = .next t) :
    t.stack = s.stack ∨ (∃ a, s.stack = t.stack ++ [a]) ∨
      (s.stack.length < stackDepth ∧ t.stack = s.stack ++ [s.pc + 2]) := by
  cases i
  case ret ign =>
    obtain ⟨rest, a, hs, rfl⟩ := execRet_next h
    exact .inr (.inl ⟨a, hs⟩)
  case call nnn =>
    obtain ⟨hs, rfl⟩ := execCall_next h
    exact .inr (.inr ⟨hs, rfl⟩)
  all_goals exact .inl ((exec_changesOnly h).stack rfl)

/-- Only LD Vx, K begins a wait, and it leaves PC where it is (R223). -/
theorem exec_wait_cases {i : Instr} {s t : State} (h : exec i s = .next t) : t.wait = s.wait ∨ t.pc = s.pc := by
  cases i
  case ldVxK x => cases h; exact .inr rfl
  all_goals exact .inl ((exec_changesOnly h).wait rfl)

theorem memWf_congr {s t : State} (hm : t.mem = s.mem) (hc : t.config = s.config) (h : s.memWf) : t.memWf := by
  rwa [State.memWf, hm, hc]

/-- Every instruction keeps memory canonical: the two that store do, and the others leave it as it was. -/
theorem exec_memWf {i : Instr} {s t : State} (hs : s.memWf) (h : exec i s = .next t) : t.memWf := by
  cases i
  case ldB x =>
    cases h
    exact writeData_memWf (writeData_memWf (writeData_memWf hs _ _) _ _) _ _
  case storeRegs x =>
    cases h
    exact memWf_congr (by simp) (by simp) (storeBlock_memWf (regsUpTo x) hs)
  case ret ign =>
    obtain ⟨rest, a, -, rfl⟩ := execRet_next h
    exact hs
  case call nnn =>
    obtain ⟨-, rfl⟩ := execCall_next h
    exact hs
  case rnd x kk => cases h; exact hs
  all_goals
    cases h
    exact memWf_congr (by simp) (by simp) hs

theorem skipIf_pc_cases (s : State) (c : Bool) : (s.skipIf c).pc = s.pc + 2 ∨ (s.skipIf c).pc = s.pc + 4 := by
  cases c
  · exact .inl rfl
  · exact .inr rfl

theorem zextAddr_eq_add_zextByte_zero (nnn : Addr) : zextAddr nnn = zextAddr nnn + zextByte 0 := by simp [zextByte]

/-- Where an instruction can leave PC (R114): at most 4 on, at a popped entry, or at the exact sum of an address and a
byte, which is that of JP V0, nnn and covers JP nnn and CALL nnn with the byte 0. -/
theorem exec_pc_cases {i : Instr} {s t : State} (h : exec i s = .next t) :
    (t.pc = s.pc ∨ t.pc = s.pc + 2 ∨ t.pc = s.pc + 4) ∨ t.pc ∈ s.stack ∨
      ∃ (nnn : Addr) (b : Byte), t.pc = zextAddr nnn + zextByte b := by
  cases i
  case ret ign =>
    obtain ⟨rest, a, hs, rfl⟩ := execRet_next h
    exact .inr (.inl (by simp [hs]))
  case call nnn =>
    obtain ⟨-, rfl⟩ := execCall_next h
    exact .inr (.inr ⟨nnn, 0, zextAddr_eq_add_zextByte_zero nnn⟩)
  case jp nnn => cases h; exact .inr (.inr ⟨nnn, 0, zextAddr_eq_add_zextByte_zero nnn⟩)
  case jpV0 nnn => cases h; exact .inr (.inr ⟨nnn, _, rfl⟩)
  case seImm | sneImm | seReg | sneReg | skp | sknp => cases h; exact .inl (.inr (skipIf_pc_cases _ _))
  case ldVxK x => cases h; exact .inl (.inl rfl)
  case rnd x kk => cases h; exact .inl (.inr (.inl rfl))
  all_goals
    cases h
    exact .inl (.inr (.inl (by simp)))

/-- The bound of R115: 4094 + 4, 0x1000 and 0xFFF + 0xFF are all at most 0x10FE. -/
theorem exec_pc_le {i : Instr} {s t : State} (hpc : s.pc.toNat + 1 < 4096) (hs : ∀ a ∈ s.stack, a.toNat ≤ 0x1000)
    (h : exec i s = .next t) : t.pc.toNat ≤ 0x10FE := by
  rcases exec_pc_cases h with (e | e | e) | e | ⟨nnn, b, e⟩
  · rw [e]; omega
  · rw [e]; bv_omega
  · rw [e]; bv_omega
  · exact (hs _ e).trans (by decide)
  · rw [e, zextAddr, zextByte]; bv_omega

/-! ### The machine's invariant -/

theorem resetWith_inv (c : Config) : (State.resetWith c).Inv where
  mem_canonical := resetWith_memWf c
  stack_depth := Nat.zero_le _
  stack_entries := by simp [State.resetWith]
  pc_range := show (0x200 : Word).toNat ≤ 0x10FE by decide
  wait_pc := by simp [State.resetWith]

/-- No step grows the stack past its depth (R27). -/
theorem exec_stack_length_le {i : Instr} {s t : State} (hs : s.stack.length ≤ stackDepth) (h : exec i s = .next t) :
    t.stack.length ≤ stackDepth := by
  rcases exec_stack_cases h with e | ⟨a, e⟩ | ⟨hlt, e⟩
  · rwa [e]
  · rw [e, List.length_append] at hs; omega
  · simpa [e] using hlt

/-- An entry is one that was there or the return address of a CALL, which was fetched below 0xFFF (R66, R133). -/
theorem exec_stack_entries {i : Instr} {s t : State} (hpc : s.pc.toNat + 1 < 4096)
    (hs : ∀ a ∈ s.stack, a.toNat ≤ 0x1000) (h : exec i s = .next t) : ∀ a ∈ t.stack, a.toNat ≤ 0x1000 := by
  rcases exec_stack_cases h with e | ⟨b, e⟩ | ⟨-, e⟩
  · rwa [e]
  · exact fun a ha => hs a (by simp [e, ha])
  · intro a ha
    rw [e, List.mem_append, List.mem_singleton] at ha
    rcases ha with ha | rfl
    · exact hs a ha
    · bv_omega

theorem exec_inv {i : Instr} {s t : State} (hs : s.Inv) (hw : s.wait = none) (hpc : s.pc.toNat + 1 < memSize)
    (h : exec i s = .next t) : t.Inv where
  mem_canonical := exec_memWf hs.mem_canonical h
  stack_depth := exec_stack_length_le hs.stack_depth h
  stack_entries := exec_stack_entries hpc hs.stack_entries h
  pc_range := exec_pc_le hpc hs.stack_entries h
  wait_pc hne := by
    rcases exec_wait_cases h with e | e
    · exact absurd (e.trans hw) hne
    · rwa [e]

/-- A poll changes no memory and no stack; it moves PC only when it ends the wait (R224). -/
theorem keyWaitPoll_inv {s : State} {k : KeyWait} (hs : s.Inv) (hw : s.wait = some k) : (s.keyWaitPoll k).Inv := by
  have hpc : s.pc.toNat + 1 < 4096 := hs.wait_pc (by simp [hw])
  rcases keyWaitPoll_cases s k with ⟨key, -, hp⟩ | ⟨-, hp⟩ <;> rw [hp]
  · exact ⟨hs.mem_canonical, hs.stack_depth, hs.stack_entries, by simp only [advance_pc, setWait_pc, writeV_pc]; bv_omega,
      fun hne => absurd rfl hne⟩
  · exact ⟨hs.mem_canonical, hs.stack_depth, hs.stack_entries, hs.pc_range, fun _ => hpc⟩

theorem step_inv {s t : State} (hs : s.Inv) (h : step s = .next t) : t.Inv := by
  rcases step_next_cases h with ⟨k, hw, rfl⟩ | ⟨hw, i, hf, hi⟩
  · exact keyWaitPoll_inv hs hw
  · exact exec_inv hs hw (fetchInstr_ok hf).1 hi

/-! ### Steps and host actions: the stack's depth and the parameters -/

theorem step_stack_length_le {s t : State} (hs : s.stack.length ≤ stackDepth) (h : step s = .next t) :
    t.stack.length ≤ stackDepth := by
  rcases step_next_cases h with ⟨k, -, rfl⟩ | ⟨-, i, -, hi⟩
  · rwa [(keyWaitPoll_changesOnly s k).stack rfl]
  · exact exec_stack_length_le hs hi

/-- A host action is a step that completes, a reset, or leaves the stack and the parameters as they were. -/
theorem apply_machine_cases {a : HostAction} {h k : Session} (e : a.apply h = some k) :
    step h.machine = .next k.machine ∨ k.machine = h.machine.hostReset ∨
      (k.machine.stack = h.machine.stack ∧ k.machine.config = h.machine.config) := by
  have same (hm : k.machine = h.machine) :
      k.machine.stack = h.machine.stack ∧ k.machine.config = h.machine.config := by simp [hm]
  obtain ⟨-, ⟨-, -, hm, -⟩ | ⟨f, -, -, hm, -⟩ | ⟨-, hm, -⟩ | ⟨i, p, -, hm, -⟩ | ⟨rom, -, -, hm | hm⟩ | ⟨-, hm, -⟩ |
    ⟨-, -, hm, -⟩ | ⟨-, hm, -⟩⟩ := apply_cases e
  · exact .inl hm
  · exact .inr (.inr (same hm))
  · exact .inr (.inr (by simp [hm]))
  · exact .inr (.inr (by simp [hm]))
  · exact .inr (.inr (same hm))
  · exact .inr (.inr (by simp [hm]))
  · exact .inr (.inl hm)
  · exact .inr (.inr (by simp [hm]))
  · exact .inr (.inr (same hm))

theorem apply_stack_length_le {a : HostAction} {h k : Session} (hs : h.machine.stack.length ≤ stackDepth)
    (e : a.apply h = some k) : k.machine.stack.length ≤ stackDepth := by
  rcases apply_machine_cases e with hm | hm | ⟨hm, -⟩
  · exact step_stack_length_le hs hm
  · rw [hm]; exact Nat.zero_le _
  · rwa [hm]

theorem apply_config {a : HostAction} {h k : Session} (e : a.apply h = some k) :
    k.machine.config = h.machine.config := by
  rcases apply_machine_cases e with hm | hm | ⟨-, hm⟩
  · exact step_config hm
  · rw [hm]; rfl
  · exact hm

theorem runHost_config {actions : List HostAction} {h k : Session} (e : runHost actions h = some k) :
    k.machine.config = h.machine.config :=
  runHost_induct (P := fun h k => k.machine.config = h.machine.config) (fun _ => rfl)
    (fun _ _ _ _ ha hr => hr.trans (apply_config ha)) actions h k e

/-- SP is the number of entries as long as that fits a byte (R26). -/
theorem sp_toNat {s : State} (hs : s.stack.length ≤ stackDepth) : s.sp.toNat = s.stack.length := by
  rw [State.sp, BitVec.toNat_ofNat]
  exact Nat.mod_eq_of_lt (hs.trans_lt (by decide))

/-! ### The reset contents of memory (R38) -/

theorem resetWith_readByte (c : Config) (a : Addr) : (State.resetWith c).readByte a = resetByte c a.toNat := rfl

theorem resetByte_font (c : Config) (k : Fin fontSize) : resetByte c (c.fontBase.val + k.val) = c.fontData[k.val] := by
  simp [resetByte]

theorem resetByte_not_font {c : Config} {a : Nat} (h : a < c.fontBase.val ∨ c.fontBase.val + fontSize ≤ a) :
    resetByte c a = 0 := by
  rw [resetByte, dif_neg (by omega)]

/-! ### The obligations of the family -/

/-- Settles O4: a step is a poll or an instruction, and each keeps every clause of the invariant. -/
theorem stepKeepsInvariant : Obligations.StepKeepsInvariant := fun _ _ => step_inv

/-- Settles O6: the bound on the stack is kept by steps and host actions, and every other range is the width of its
component. -/
theorem stepKeepsComponentRanges : Obligations.StepKeepsComponentRanges := by
  intro s t hs hreach
  have ht : t.stack.length ≤ stackDepth := by
    rcases hreach with h | ⟨a, h, k, rfl, ha, rfl⟩
    · exact step_stack_length_le hs h
    · exact apply_stack_length_le hs ha
  have hsp := sp_toNat ht
  exact ⟨fun r => Nat.le_of_lt_succ (t.readV r).isLt, Nat.le_of_lt_succ t.i.isLt, Nat.le_of_lt_succ t.pc.isLt,
    hsp.trans_le ht, hsp, Nat.le_of_lt_succ t.dt.isLt, Nat.le_of_lt_succ t.st.isLt,
    fun row col => Bool.eq_false_or_eq_true _ |>.symm, fun k => Bool.eq_false_or_eq_true _ |>.symm,
    fun w _ => Nat.le_of_lt_succ w.dest.isLt⟩

/-- Settles O58: each instruction's meaning is a chain of state operations, all within its row of R23. -/
theorem instructionsWriteOnlyTheirRow : Obligations.InstructionsWriteOnlyTheirRow := fun _ _ _ => exec_changesOnly

/-- Settles O60: no row of R23 names the keys or the parameters, and a host action leaves the parameters, a reset
included. -/
theorem keysAndParametersAreReadOnly : Obligations.KeysAndParametersAreReadOnly :=
  ⟨fun _ _ h => ⟨step_keys h, step_config h⟩, fun _ _ _ => runHost_config⟩

/-- Settles O1: component by component; the font and the other addresses are the two cases of `resetByte`. -/
theorem resetHoldsSpecifiedValues : Obligations.ResetHoldsSpecifiedValues := by
  refine ⟨rfl, fun c => ⟨fun r => ?_, rfl, rfl, rfl, rfl, rfl, rfl, fun k => ?_, fun a ha => ?_, fun row col => ?_,
    fun k => ?_, rfl⟩⟩
  · simp [State.readV, State.resetWith]
  · have hbase : c.fontBase.val < 4096 - 80 := c.fontBase.isLt
    have hlt : c.fontBase.val + k.val < 2 ^ 12 := by omega
    rw [resetWith_readByte, BitVec.toNat_ofNat, Nat.mod_eq_of_lt hlt]
    exact resetByte_font c k
  · exact (resetWith_readByte c a).trans (resetByte_not_font ha)
  · exact Display.clear_pixel row col
  · simp [State.key, State.resetWith]

/-- Settles O3: memory lists nothing, the stack is empty, PC is 0x200 and no wait is pending. -/
theorem resetMeetsInvariant : Obligations.ResetMeetsInvariant := ⟨resetWith_inv defaultConfig, resetWith_inv⟩

end Sys2Proof.Machine
end

section
/-! Family 20_memory: data addresses (R65, R180), and what a fetch reads of the bytes that LD [I], Vx stored (R62, R75,
R185). -/

namespace Sys2Proof.Machine

/-! ### Data addresses (R65) -/

@[simp] theorem dataAddr_toNat (s : State) (k : Nat) : (s.dataAddr k).toNat = (s.i.toNat + k) % 4096 :=
  BitVec.toNat_ofNat _ _

/-- Counting on from a data address, masked to the store, is a data address again: both wrap modulo 4096. -/
theorem ofNat_dataAddr_add (s : State) (k j : Nat) :
    BitVec.ofNat 12 ((s.dataAddr k).toNat + j) = s.dataAddr (k + j) := by
  apply BitVec.eq_of_toNat_eq
  rw [BitVec.toNat_ofNat, dataAddr_toNat, dataAddr_toNat]
  omega

/-! ### The fetch below its bound (R62, R66) -/

theorem fetchWord_of_lt {s : State} (h : s.pc.toNat + 1 < memSize) :
    s.fetchWord = .ok (wordOfBytes (s.readByte (BitVec.ofNat 12 s.pc.toNat))
      (s.readByte (BitVec.ofNat 12 (s.pc.toNat + 1)))) :=
  if_neg (Nat.not_le.mpr h)

/-! ### The bytes LD [I], Vx stores (R185) -/

/-- Neither the increment of I nor the PC update hides a byte of the block, also where the block wraps. -/
theorem execStoreRegs_readByte {x k : RegIdx} {s t : State} (h : execStoreRegs x s = .next t) (hk : k ≤ x) :
    t.readByte (s.dataAddr k.val) = s.readV k := by
  cases h
  rw [readByte_advance, blockIncrement_readByte]
  exact storeBlock_readByte_stored _ s (regsUpTo_nodup x) k ((mem_regsUpTo x k).mpr hk)

/-! ### The obligations of the family -/

/-- Settles O36: an address is 12 bits wide. -/
theorem dataAddressWraps : Obligations.DataAddressWraps := dataAddr_toNat

/-- Settles O43: the fetch at the data address 0 reads the data addresses 0 and 1, which the block store set to V0 and
V1. -/
theorem storedWordIsFetched : Obligations.StoredWordIsFetched := by
  intro x s hx hlt
  refine ⟨_, rfl, fun u hmem hconfig hpc => ?_⟩
  have stored {k : RegIdx} (hk : k ≤ x) : u.readByte (s.dataAddr k.val) = s.readV k :=
    (readByte_congr hmem hconfig _).trans (execStoreRegs_readByte rfl hk)
  have hhi : u.readByte (s.dataAddr 0) = s.readV 0 := stored (Fin.zero_le x)
  have hlo : u.readByte (s.dataAddr 1) = s.readV 1 := stored (k := 1) hx
  rw [fetchWord_of_lt (hpc ▸ hlt), hpc, BitVec.ofNat_toNat, BitVec.setWidth_eq, ofNat_dataAddr_add, hhi, hlo,
    wordOfBytes]

end Sys2Proof.Machine
end

section
/-! Family 30_encoding: the decoder and the encoder are each other's inverse on well-formed instructions (R81, R82,
R84), and from that which words are legal under each setting of STRICT_DECODE (R85); then what the ignored bits do
(R86), and that no step is refused. -/

namespace Sys2Proof

/-! ### The fields of a word as numbers (R81) -/

theorem famField_eq_iff (op : Word) (f : Nibble) : famField op = f ↔ op.toNat / 4096 = f.toNat := by
  rw [← BitVec.toNat_inj, famField, nat_extract]
  omega

theorem xBits_eq_iff (op : Word) (x : Nibble) : xBits op = x ↔ op.toNat / 256 % 16 = x.toNat := by
  rw [← BitVec.toNat_inj, xBits, nat_extract]
  omega

theorem nBits_eq_iff (op : Word) (n : Nibble) : nBits op = n ↔ op.toNat % 16 = n.toNat := by
  rw [← BitVec.toNat_inj, nBits, nat_extract]
  omega

theorem kkField_eq_iff (op : Word) (kk : Byte) : kkField op = kk ↔ op.toNat % 256 = kk.toNat := by
  rw [← BitVec.toNat_inj, kkField, nat_extract]
  omega

/-! ### Well-formed instructions (R82) -/

theorem wellFormed_iff {strict : Bool} {i : Instr} : i.wellFormed strict = true ↔ (strict = true → i.ignored = 0) := by
  cases strict <;> simp [Instr.wellFormed]

theorem wellFormed_of_ignored {strict : Bool} {i : Instr} (h : i.ignored = 0) : i.wellFormed strict = true :=
  wellFormed_iff.mpr fun _ => h

/-! ### Decoding an encoded instruction (R84) -/

theorem decode_encode {strict : Bool} {i : Instr} (h : i.wellFormed strict = true) :
    decode strict (encode i) = .ok i := by
  cases i
  case cls ign | ret ign =>
    simpa [encode, decode, decodeFam0, Instr.ignored] using wellFormed_iff.mp h
  case seReg x y ign | sneReg x y ign =>
    simpa [encode, decode, Instr.ignored] using wellFormed_iff.mp h
  case ldReg | orReg | andReg | xorReg | addReg | subReg | shr | subn | shl => simp [encode, decode, decodeFam8]
  case skp | sknp => simp [encode, decode, decodeFamE]
  case ldVxDT | ldVxK | ldDTVx | ldSTVx | addI | ldF | ldB | storeRegs | loadRegs =>
    simp [encode, decode, decodeFamF]
  case jp | call | seImm | sneImm | ldImm | addImm | ldI | jpV0 | rnd | drw => simp [encode, decode]

/-! ### Encoding a decoded word (R84)

A word is rebuilt from its family, the fields that its instruction keeps and the fields that the decoder matched on. -/

section
variable {strict : Bool} {op : Word} {i : Instr} {f : Nibble}

theorem encAddr_nnnField (hf : famField op = f) : encAddr f (nnnField op) = op := by
  rw [← hf, encAddr_fields]

theorem encXKK_xBits (hf : famField op = f) {kk : Byte} (hk : kkField op = kk) : encXKK f (xBits op) kk = op := by
  rw [← hf, ← hk, encXKK_fields]

theorem encXYN_xBits_yBits (hf : famField op = f) {n : Nibble} (hn : nBits op = n) :
    encXYN f (xBits op) (yBits op) n = op := by
  rw [← hf, ← hn, encXYN_fields]

theorem encode_of_decodeFam0 (hf : famField op = 0x0) (h : decodeFam0 strict op = .ok i) :
    encode i = op ∧ i.wellFormed strict = true := by
  unfold decodeFam0 at h
  split at h
  · cases h
  · rename_i hs
    split at h <;> cases h
    case h_1 hk | h_2 hk => exact ⟨encXKK_xBits hf hk, wellFormed_iff.mpr (by simpa [Instr.ignored] using hs)⟩

theorem encode_of_decodeFam8 (hf : famField op = 0x8) (h : decodeFam8 op = .ok i) :
    encode i = op ∧ i.ignored = 0 := by
  unfold decodeFam8 at h
  split at h <;> cases h <;> exact ⟨encXYN_xBits_yBits hf ‹_›, rfl⟩

theorem encode_of_decodeFamE (hf : famField op = 0xE) (h : decodeFamE op = .ok i) :
    encode i = op ∧ i.ignored = 0 := by
  unfold decodeFamE at h
  split at h <;> cases h <;> exact ⟨encXKK_xBits hf ‹_›, rfl⟩

theorem encode_of_decodeFamF (hf : famField op = 0xF) (h : decodeFamF op = .ok i) :
    encode i = op ∧ i.ignored = 0 := by
  unfold decodeFamF at h
  split at h <;> cases h <;> exact ⟨encXKK_xBits hf ‹_›, rfl⟩

theorem encode_of_decode (h : decode strict op = .ok i) : encode i = op ∧ i.wellFormed strict = true := by
  unfold decode at h
  split at h -- case h_n is the n-th row of the decoder: family n - 1, and h_17 where no row matches
  case h_1 hf => exact encode_of_decodeFam0 hf h
  case h_9 hf => exact (encode_of_decodeFam8 hf h).imp_right wellFormed_of_ignored
  case h_15 hf => exact (encode_of_decodeFamE hf h).imp_right wellFormed_of_ignored
  case h_16 hf => exact (encode_of_decodeFamF hf h).imp_right wellFormed_of_ignored
  case h_6 hf | h_10 hf =>
    split at h <;> cases h
    rename_i hs
    exact ⟨encXYN_xBits_yBits hf rfl, wellFormed_iff.mpr (by simpa [Instr.ignored] using hs)⟩
  case h_2 hf | h_3 hf | h_11 hf | h_12 hf =>
    cases h
    exact ⟨encAddr_nnnField hf, wellFormed_of_ignored rfl⟩
  case h_4 hf | h_5 hf | h_7 hf | h_8 hf | h_13 hf =>
    cases h
    exact ⟨encXKK_xBits hf rfl, wellFormed_of_ignored rfl⟩
  case h_14 hf =>
    cases h
    exact ⟨encXYN_xBits_yBits hf rfl, wellFormed_of_ignored rfl⟩
  case h_17 => cases h

end

/-- The decoder is the inverse of the encoder, on the well-formed instructions. -/
theorem decode_eq_ok_iff (strict : Bool) (op : Word) (i : Instr) :
    decode strict op = .ok i ↔ encode i = op ∧ i.wellFormed strict = true :=
  ⟨encode_of_decode, fun ⟨he, hw⟩ => he ▸ decode_encode hw⟩

/-! ### The ignored bits of a word (R82) -/

/-- Families 0x0, 0x5 and 0x9 alone have ignored bits, and they are the operand of their instructions. -/
theorem ignored_eq_zero_iff (i : Instr) : i.ignored = 0 ↔
    (famField (encode i) = 0x0 → xBits (encode i) = 0) ∧
    (famField (encode i) = 0x5 ∨ famField (encode i) = 0x9 → nBits (encode i) = 0) := by
  cases i <;> simp [Instr.ignored, encode]

/-! ### The illegal words (R85) -/

section
variable (op : Word)

theorem decodeFam0_error_iff : decodeFam0 false op = .error (.invalid op) ↔ kkField op ∉ [0xE0, 0xEE] := by
  simp only [decodeFam0, Bool.false_and, Bool.false_eq_true, if_false]
  split <;> simp_all

/-- The rows 0x0 to 0x7 and 0xE are legal, so a nibble that is none of them is one of the other seven. -/
theorem decodeFam8_error_iff :
    decodeFam8 op = .error (.invalid op) ↔ nBits op ∈ [0x8, 0x9, 0xA, 0xB, 0xC, 0xD, 0xF] := by
  unfold decodeFam8
  split
  case h_10 =>
    simp only [imp_false, List.mem_cons, List.not_mem_nil, or_false, true_iff] at *
    bv_omega
  all_goals simp [*]

theorem decodeFamE_error_iff : decodeFamE op = .error (.invalid op) ↔ kkField op ∉ [0x9E, 0xA1] := by
  unfold decodeFamE
  split <;> simp_all

theorem decodeFamF_error_iff : decodeFamF op = .error (.invalid op) ↔
    kkField op ∉ [0x07, 0x0A, 0x15, 0x18, 0x1E, 0x29, 0x33, 0x55, 0x65] := by
  unfold decodeFamF
  split <;> simp_all

theorem decode_error_iff : decode false op = .error (.invalid op) ↔
    (famField op = 0x0 ∧ kkField op ∉ [0xE0, 0xEE]) ∨
    (famField op = 0x8 ∧ nBits op ∈ [0x8, 0x9, 0xA, 0xB, 0xC, 0xD, 0xF]) ∨
    (famField op = 0xE ∧ kkField op ∉ [0x9E, 0xA1]) ∨
    (famField op = 0xF ∧ kkField op ∉ [0x07, 0x0A, 0x15, 0x18, 0x1E, 0x29, 0x33, 0x55, 0x65]) := by
  rw [← decodeFam0_error_iff, ← decodeFam8_error_iff, ← decodeFamE_error_iff, ← decodeFamF_error_iff]
  unfold decode
  split -- h_17 is no family at all
  case h_17 =>
    simp only [imp_false] at *
    bv_omega
  all_goals simp [*]

end

end Sys2Proof

namespace Sys2Proof.Machine

/-! ### What an instruction can answer (R110, R131, R133) -/

theorem exec_ret_of_stack {s : State} {rest : List Word} {w : Word} (hs : s.stack = rest ++ [w]) (ign : Nibble) :
    exec (.ret ign) s = .next ({ s with stack := rest }.setPC w) := by
  simp [exec, execRet, pop_eq_some hs]

theorem execRet_ne_refused (ign : Nibble) (s : State) (r : Refusal) : execRet ign s ≠ .refused r := by
  unfold execRet
  split <;> simp [raise]

theorem execCall_ne_refused (nnn : Addr) (s : State) (r : Refusal) : execCall nnn s ≠ .refused r := by
  unfold execCall
  split <;> simp [raise]

theorem exec_ne_refused (i : Instr) (s : State) (r : Refusal) : exec i s ≠ .refused r := by
  cases i
  case ret ign => exact execRet_ne_refused ign s r
  case call nnn => exact execCall_ne_refused nnn s r
  all_goals exact nofun

theorem step_ne_refused (s : State) (r : Refusal) : step s ≠ .refused r := by
  unfold step
  split
  · exact nofun
  · split
    · exact nofun
    · exact exec_ne_refused _ s r

/-! ### The obligations of the family -/

/-- Settles O7: the fields of an encoded word are the fields it was built from. -/
theorem decodeOfEncode : Obligations.DecodeOfEncode := fun _ _ => decode_encode

/-- Settles O8: a word is rebuilt from the fields that its instruction keeps and those that the decoder matched on. -/
theorem encodeOfDecode : Obligations.EncodeOfDecode := fun _ _ _ => encode_of_decode

/-- Settles O9: family by family, what its decoder's match leaves over. -/
theorem illegalWordsAreRejected : Obligations.IllegalWordsAreRejected := by
  intro op
  simp [decode_error_iff, famField_eq_iff, kkField_eq_iff, nBits_eq_iff]

/-- Settles O10: both decodes invert the encoder, and the strict one wants the ignored operand to be 0. -/
theorem strictDecodeDropsNonzeroIgnoredBits : Obligations.StrictDecodeDropsNonzeroIgnoredBits := by
  intro op i
  rw [decode_eq_ok_iff, decode_eq_ok_iff, and_assoc]
  refine and_congr_right ?_
  rintro rfl
  simpa [wellFormed_iff, famField_eq_iff, xBits_eq_iff, nBits_eq_iff] using ignored_eq_zero_iff i

/-- Settles O15: a step answers a poll, an error or what the instruction answers. -/
theorem stepNeverRefuses : Obligations.StepNeverRefuses := step_ne_refused

/-- Settles O11: the decoder, run on each word. -/
theorem sampleWordsDecode : Obligations.SampleWordsDecode := ⟨rfl, rfl, rfl, rfl, rfl⟩

/-- Settles O12: only RET's error reads the ignored bits, and with a non-empty stack it raises none. -/
theorem ignoredBitsDoNotChangeTheEffect : Obligations.IgnoredBitsDoNotChangeTheEffect := by
  refine ⟨fun _ _ => rfl, fun ign s hne => ?_, fun _ _ _ _ => rfl, fun _ _ _ _ => rfl⟩
  obtain hs | ⟨rest, w, hs⟩ := List.eq_nil_or_concat' s.stack
  · exact absurd hs hne
  · exact ⟨_, exec_ret_of_stack hs ign, exec_ret_of_stack hs 0⟩

end Sys2Proof.Machine
end

section
/-! Family 40_core_cycle: how a step is chosen (R111), what a poll does while a wait is pending (R112), and the PC update
of each class of instructions (R114). -/

namespace Sys2Proof.Machine

/-! ### The fetch and the decode as branches of the step (R62, R66, R84) -/

@[simp] theorem wordOfBytes_toNat (hi lo : Byte) : (wordOfBytes hi lo).toNat = hi.toNat * 256 + lo.toNat := by
  rw [wordOfBytes, BitVec.toNat_ofNat]
  omega

theorem fetchInstr_of_ge {s : State} (h : memSize ≤ s.pc.toNat + 1) : s.fetchInstr = .error (.memoryFault s.pc) := by
  simp [State.fetchInstr, State.fetchWord, h]

theorem fetchInstr_of_decode_error {s : State} {op : Word} {r : DecodeReject} (hop : s.fetchWord = .ok op)
    (h : decode s.config.strictDecode op = .error r) : s.fetchInstr = .error (.invalidOpcode op) := by
  simp [State.fetchInstr, hop, h]

theorem fetchInstr_of_decode_ok {s : State} {op : Word} {i : Instr} (hop : s.fetchWord = .ok op)
    (h : decode s.config.strictDecode op = .ok i) : s.fetchInstr = .ok i := by
  simp [State.fetchInstr, hop, h]

/-! ### The poll (R112, R224) -/

theorem keyWaitPoll_of_some {s : State} {w : KeyWait} {k : KeyIdx} (h : lowestNewPress w.seen s.keys = some k) :
    s.keyWaitPoll w = ((s.writeV w.dest (BitVec.ofNat 8 k.val)).setWait none).advance := by
  simp [State.keyWaitPoll, h]

theorem keyWaitPoll_of_none {s : State} {w : KeyWait} (h : lowestNewPress w.seen s.keys = none) :
    s.keyWaitPoll w = s.setWait (some ⟨w.dest, s.keys⟩) := by
  simp [State.keyWaitPoll, h]

theorem keyWaitPoll_setMem (s : State) (w : KeyWait) (m : Memory) :
    { s with mem := m }.keyWaitPoll w = { s.keyWaitPoll w with mem := m } := by
  cases h : lowestNewPress w.seen s.keys with
  | some k => rw [keyWaitPoll_of_some h, keyWaitPoll_of_some (s := { s with mem := m }) h]; rfl
  | none => rw [keyWaitPoll_of_none h, keyWaitPoll_of_none (s := { s with mem := m }) h]; rfl

/-- A poll completes the wait and advances, or leaves it pending for the same register with PC where it was. -/
theorem keyWaitPoll_wait_pc_cases (s : State) (w : KeyWait) :
    ((s.keyWaitPoll w).wait = none ∧ (s.keyWaitPoll w).pc = s.pc + 2) ∨
    ((s.keyWaitPoll w).wait = some ⟨w.dest, s.keys⟩ ∧ (s.keyWaitPoll w).pc = s.pc) := by
  rcases keyWaitPoll_cases s w with ⟨k, -, hp⟩ | ⟨-, hp⟩ <;> rw [hp]
  · exact .inl ⟨rfl, rfl⟩
  · exact .inr ⟨rfl, rfl⟩

/-! ### The PC update of each class (R114) -/

@[simp] theorem zextAddr_toNat (nnn : Addr) : (zextAddr nnn).toNat = nnn.toNat := by
  rw [zextAddr]
  bv_omega

/-- The exact sum of an address and a byte: it never wraps, and it may pass the end of the store (R138). -/
theorem zextAddr_add_zextByte_toNat (nnn : Addr) (b : Byte) :
    (zextAddr nnn + zextByte b).toNat = nnn.toNat + b.toNat := by
  rw [zextAddr, zextByte]
  bv_omega

theorem lowNibble_val (b : Byte) : (lowNibble b).val = b.toNat % 16 := by
  simp [lowNibble]

section
variable {i : Instr} {s t : State}

theorem exec_pc_of_next (hc : pcClassOf i = .next) (h : exec i s = .next t) : t.pc = s.pc + 2 := by
  cases i
  case jp | jpV0 | call | ret | seImm | sneImm | seReg | sneReg | skp | sknp | ldVxK => cases hc
  case rnd x kk => cases h; rfl
  all_goals
    cases h
    simp

/-- An instruction of class SKIP does nothing but move PC, by its condition. -/
theorem exec_of_skip (hc : pcClassOf i = .skip) (s : State) : exec i s = .next (s.skipIf (skipCondition i s)) := by
  cases i
  case seImm | sneImm | seReg | sneReg => rfl
  case skp x | sknp x => simp [exec, execSkp, execSknp, skipCondition, State.key, lowNibble_val]
  all_goals cases hc

theorem exec_pc_of_jump (hc : pcClassOf i = .jump) (h : exec i s = .next t) :
    (∃ nnn : Addr, (i = .jp nnn ∨ i = .call nnn) ∧ t.pc.toNat = nnn.toNat) ∨
    (∃ nnn : Addr, i = .jpV0 nnn ∧ t.pc.toNat = nnn.toNat + (s.readV (s.jumpRegister nnn)).toNat) ∨
    (∃ ign, i = .ret ign ∧ s.stack.getLast? = some t.pc) := by
  cases i
  case jp nnn =>
    cases h
    exact .inl ⟨nnn, .inl rfl, zextAddr_toNat nnn⟩
  case call nnn =>
    obtain ⟨-, rfl⟩ := execCall_next h
    exact .inl ⟨nnn, .inr rfl, zextAddr_toNat nnn⟩
  case jpV0 nnn =>
    cases h
    exact .inr (.inl ⟨nnn, rfl, zextAddr_add_zextByte_toNat nnn _⟩)
  case ret ign =>
    obtain ⟨rest, a, hs, rfl⟩ := execRet_next h
    exact .inr (.inr ⟨ign, rfl, by simp [hs]⟩)
  all_goals cases hc

theorem exec_pc_of_wait (hc : pcClassOf i = .wait) (h : exec i s = .next t) : t.pc = s.pc ∧ t.wait ≠ none := by
  cases i
  case ldVxK x =>
    cases h
    exact ⟨rfl, nofun⟩
  all_goals cases hc

end

/-! ### The obligations of the family -/

/-- Settles O16: the step is a poll, and the poll neither reads nor writes memory. -/
theorem pendingWaitFetchesNothing : Obligations.PendingWaitFetchesNothing := by
  intro s w m hw
  refine ⟨s.keyWaitPoll w, step_of_wait hw, ?_, (keyWaitPoll_wait_pc_cases s w).imp And.left And.left⟩
  rw [step_of_wait (s := { s with mem := m }) hw, keyWaitPoll_setMem]

/-- Settles O59: class by class for an instruction, and by the two ends of a poll. -/
theorem pcUpdateFollowsClass : Obligations.PcUpdateFollowsClass := by
  refine ⟨fun i s t h => ⟨(exec_pc_of_next · h), fun hc => ?_, (exec_pc_of_jump · h), (exec_pc_of_wait · h)⟩,
    fun s w hw => ⟨s.keyWaitPoll w, step_of_wait hw, ?_⟩⟩
  · rw [exec_of_skip hc] at h
    cases h
    rfl
  · rcases keyWaitPoll_wait_pc_cases s w with ⟨hnone, hpc⟩ | ⟨hsome, hpc⟩
    · exact ⟨fun _ => hpc, fun hne => absurd hnone hne⟩
    · exact ⟨fun hnone => by simp [hsome] at hnone, fun _ => hpc⟩

/-- Settles O13: the branches of the step; a word is the one that its two bytes make, high byte first. -/
theorem stepRunsDecodedInstruction : Obligations.StepRunsDecodedInstruction := by
  refine fun s => ⟨fun w hw => step_of_wait hw, fun hw hge => step_of_fetch_error hw (fetchInstr_of_ge hge),
    fun op hw hlt hbytes => ?_⟩
  have hop : s.fetchWord = .ok op := by
    rw [fetchWord_of_lt hlt]
    exact congrArg Except.ok (BitVec.eq_of_toNat_eq ((wordOfBytes_toNat _ _).trans hbytes.symm))
  exact ⟨fun r hd => step_of_fetch_error hw (fetchInstr_of_decode_error hop hd),
    fun i hd => step_of_fetch_ok hw (fetchInstr_of_decode_ok hop hd)⟩

end Sys2Proof.Machine
end

section
/-! Family 41_control: what RET, CALL, the jumps and the skips of spec 41_control do to PC, the stack and SP (R131 to
R138), and the round trip of a CALL and the RET that answers it (R139). -/

namespace Sys2Proof.Machine

/-! ### SP is the number of entries (R26) -/

theorem sp_congr {s t : State} (h : s.stack = t.stack) : s.sp = t.sp := by
  simp [State.sp, h]

/-- One entry more on the stack is one more in SP, which wraps as its 8 bits do. -/
theorem sp_of_stack_concat {s t : State} {a : Word} (h : t.stack = s.stack ++ [a]) : t.sp = s.sp + 1 := by
  simp [State.sp, h, BitVec.ofNat_add]

/-! ### RET and CALL, case by case (R131, R133) -/

theorem exec_ret_of_nil {s : State} (hs : s.stack = []) (ign : Nibble) :
    exec (.ret ign) s = .fault (.stackUnderflow (encode (.ret ign))) := by
  simp [exec, execRet, pop_eq_none hs, raise]

theorem exec_call_of_lt {s : State} (hs : s.stack.length < stackDepth) (nnn : Addr) :
    exec (.call nnn) s = .next ({ s with stack := s.stack ++ [s.pc + 2] }.setPC (zextAddr nnn)) := by
  simp [exec, execCall, push_eq_some hs]

theorem exec_call_of_ge {s : State} (hs : stackDepth ≤ s.stack.length) (nnn : Addr) :
    exec (.call nnn) s = .fault (.stackOverflow (encode (.call nnn))) := by
  simp [exec, execCall, push_eq_none hs, raise]

/-! ### The skips and the register of JP V0 (R134 to R138) -/

/-- An instruction of class SKIP whose condition says `p` advances PC by 4 or by 2, and that is all it does. -/
theorem exec_skip_frame {i : Instr} {s : State} {p : Prop} [Decidable p] (hc : pcClassOf i = .skip)
    (hp : skipCondition i s = true ↔ p) :
    ∃ t, exec i s = .next t ∧ t.pc = (if p then s.pc + 4 else s.pc + 2) ∧ ChangesOnly {} s t :=
  ⟨_, exec_of_skip hc s, by simp [hp], (ChangesOnly.refl _ s).skipIf _⟩

theorem jumpX_val (nnn : Addr) : (jumpX nnn).val = nnn.toNat / 256 := by
  simp only [jumpX, BitVec.val_toFin, BitVec.extractLsb'_toNat, Nat.shiftRight_eq_div_pow]
  omega

theorem jumpRegister_val (s : State) (nnn : Addr) :
    (s.jumpRegister nnn).val = if s.config.jumpWithVX then nnn.toNat / 256 else 0 := by
  rw [State.jumpRegister, apply_ite Fin.val, jumpX_val]
  rfl

/-! ### The obligations of the family -/

/-- Settles O23: RET pops the entry that CALL appended, so PC is the word after the CALL and the stack is as before. -/
theorem callThenRetRoundTrip : Obligations.CallThenRetRoundTrip := by
  intro nnn ign s hs
  refine ⟨_, exec_call_of_lt hs nnn, fun u hu => ?_⟩
  exact ⟨_, exec_ret_of_stack hu ign, rfl, rfl, sp_congr rfl⟩

/-- Settles O20: the stack ends in the popped entry, or it is empty and the error carries the encoded word. -/
theorem retPopsIntoPC : Obligations.RetPopsIntoPC := by
  refine ⟨fun ign s rest a hs => ?_, fun ign s hs => ?_⟩
  · refine ⟨_, exec_ret_of_stack hs ign, rfl, rfl, ?_, ((ChangesOnly.refl _ s).setStack rfl rest).setPC a⟩
    exact eq_sub_of_add_eq (sp_of_stack_concat hs).symm
  · simp [exec_ret_of_nil hs, encode, encXKK]

/-- Settles O21: the meaning of JP is one write of PC. -/
theorem jpSetsPC : Obligations.JpSetsPC := fun nnn s =>
  ⟨s.setPC (zextAddr nnn), rfl, zextAddr_toNat nnn, (ChangesOnly.refl _ s).setPC _⟩

/-- Settles O22: below the limit the return address is appended, and at the limit the error carries the encoded word. -/
theorem callPushesReturnAddress : Obligations.CallPushesReturnAddress := by
  refine ⟨fun nnn s hs => ?_, fun nnn s hs => ?_⟩
  · exact ⟨_, exec_call_of_lt hs nnn, zextAddr_toNat nnn, rfl, sp_of_stack_concat rfl,
      ((ChangesOnly.refl _ s).setStack rfl _).setPC _⟩
  · simp [exec_call_of_ge hs.ge, encode, encAddr]

/-- Settles O24: the condition of SE is that the two are equal, that of SNE that they differ. -/
theorem skipsOnImmediate : Obligations.SkipsOnImmediate := fun _ _ _ =>
  ⟨exec_skip_frame rfl beq_iff_eq, exec_skip_frame rfl bne_iff_ne⟩

/-- Settles O25: as O24, and the condition does not read the ignored bits. -/
theorem skipsOnRegisters : Obligations.SkipsOnRegisters := fun _ _ _ _ =>
  ⟨exec_skip_frame rfl beq_iff_eq, exec_skip_frame rfl bne_iff_ne⟩

/-- Settles O26: `r` is the register that the model selects, and the sum of a 12-bit and an 8-bit number fits PC. -/
theorem jpV0AddsRegister : Obligations.JpV0AddsRegister := by
  intro nnn s r hr
  have hsel : r = s.jumpRegister nnn := Fin.ext (hr.trans (jumpRegister_val s nnn).symm)
  subst hsel
  exact ⟨_, rfl, zextAddr_add_zextByte_toNat nnn _, (ChangesOnly.refl _ s).setPC _⟩

end Sys2Proof.Machine
end

section
/-! Family 42_alu: what register arithmetic and logic write to V[x] and VF (R151 to R161), and RND for every draw
(R162). -/

namespace Sys2Proof.Machine

/-! ### The flags and the shift operand as numbers (R157 to R161) -/

theorem flagByte_toNat (p : Prop) [Decidable p] : (flagByte (decide p)).toNat = if p then 1 else 0 := by
  by_cases h : p <;> simp [flagByte, h]

theorem carryFlag_toNat (a b : Byte) : (carryFlag a b).toNat = if 256 ≤ a.toNat + b.toNat then 1 else 0 :=
  flagByte_toNat _

theorem noBorrowFlag_toNat (a b : Byte) : (noBorrowFlag a b).toNat = if b.toNat ≤ a.toNat then 1 else 0 :=
  flagByte_toNat _

theorem shiftedOutRight_toNat (b : Byte) : (shiftedOutRight b).toNat = b.toNat % 2 := by
  simp [shiftedOutRight, Nat.and_one_is_mod]

theorem shiftedOutLeft_toNat (b : Byte) : (shiftedOutLeft b).toNat = b.toNat / 128 := by
  simp [shiftedOutLeft, Nat.shiftRight_eq_div_pow]

theorem byte_sub_toNat (a b : Byte) : (a - b).toNat = (256 + a.toNat - b.toNat) % 256 := by
  rw [BitVec.toNat_sub]
  omega

theorem byte_shiftRight_one_toNat (b : Byte) : (b >>> 1).toNat = b.toNat / 2 := by
  rw [BitVec.toNat_ushiftRight, Nat.shiftRight_eq_div_pow, pow_one]

theorem byte_shiftLeft_one_toNat (b : Byte) : (b <<< 1).toNat = b.toNat * 2 % 256 := by
  rw [BitVec.toNat_shiftLeft, Nat.shiftLeft_eq, pow_one]

theorem shiftOperand_eq_ite (s : State) (x y : RegIdx) :
    s.shiftOperand x y = if s.config.shiftSource = .vy then s.readV y else s.readV x := by
  cases h : s.config.shiftSource <;> simp [State.shiftOperand, h]

/-! ### The three shapes of the family's instructions (R150) -/

section
variable {i : Instr} {s : State} {x : RegIdx} {b f : Byte}

/-- An instruction that writes one register and advances (R151 to R153). -/
theorem exec_writeV_frame (h : exec i s = .next (s.writeV x b).advance) :
    ∃ t, exec i s = .next t ∧ t.readV x = b ∧ t.pc = s.pc + 2 ∧ ChangesOnly { regs := only x } s t :=
  ⟨_, h, by simp, rfl, ((ChangesOnly.refl _ s).writeV (only_self x) b).advance⟩

/-- An instruction that writes a result and then a flag, so that with x = VF the flag remains (R157 to R161). -/
theorem exec_writeResultFlag_frame {n m : Nat} (h : exec i s = .next (s.writeResultFlag x b f).advance)
    (hb : b.toNat = n) (hf : f.toNat = m) :
    ∃ t, exec i s = .next t ∧ (x ≠ VF → (t.readV x).toNat = n) ∧ (t.readV VF).toNat = m ∧ t.pc = s.pc + 2 ∧
      ChangesOnly { regs := onlyAndVF x } s t := by
  refine ⟨_, h, fun hx => ?_, ?_, rfl,
    ((ChangesOnly.refl _ s).writeResultFlag (onlyAndVF_self x) (onlyAndVF_VF x) b f).advance⟩
  · simpa [hx] using hb
  · simpa using hf

/-- An instruction that writes a result and then resets VF when LOGIC_RESETS_VF (R154 to R156). -/
theorem exec_logicReset_frame (h : exec i s = .next (s.writeV x b).logicReset.advance) :
    ∃ t, exec i s = .next t ∧ t.pc = s.pc + 2 ∧
      (s.config.logicResetsVF = false → t.readV x = b ∧ ChangesOnly { regs := only x } s t) ∧
      (s.config.logicResetsVF = true →
        (x ≠ VF → t.readV x = b) ∧ t.readV VF = 0 ∧ ChangesOnly { regs := onlyAndVF x } s t) := by
  refine ⟨_, h, by simp, fun hc => ⟨by simp [hc], ?_⟩, fun hc => ⟨fun hx => by simp [hx], by simp [hc], ?_⟩⟩
  · exact (((ChangesOnly.refl _ s).writeV (only_self x) b).logicReset fun ht => by simp [hc] at ht).advance
  · exact (((ChangesOnly.refl _ s).writeV (onlyAndVF_self x) b).logicReset fun _ => onlyAndVF_VF x).advance

end

/-! ### The obligations of the family -/

/-- Settles O27: the meaning of LD Vx, kk is one register write. -/
theorem ldImmWritesRegister : Obligations.LdImmWritesRegister := fun _ _ _ => exec_writeV_frame rfl

/-- Settles O28: the sum of two bytes wraps modulo 256, and no flag is written. -/
theorem addImmWrapsWithoutFlag : Obligations.AddImmWrapsWithoutFlag := by
  intro x kk s
  obtain ⟨t, ht, hx, hpc, hframe⟩ := exec_writeV_frame (i := .addImm x kk) (s := s) rfl
  exact ⟨t, ht, hx ▸ BitVec.toNat_add _ _, hpc, hframe⟩

/-- Settles O29: the meaning of LD Vx, Vy is one register write. -/
theorem ldRegCopies : Obligations.LdRegCopies := fun _ _ _ => exec_writeV_frame rfl

/-- Settles O30: OR, AND and XOR differ only in the result that they write before the reset. -/
theorem logicOperations : Obligations.LogicOperations := by
  rintro i x y s result (⟨rfl, rfl⟩ | ⟨rfl, rfl⟩ | ⟨rfl, rfl⟩) <;> exact exec_logicReset_frame rfl

/-- Settles O31: the flag, written last, is the carry of the old values. -/
theorem addRegSetsCarry : Obligations.AddRegSetsCarry := fun _ _ _ =>
  exec_writeResultFlag_frame rfl (BitVec.toNat_add _ _) (carryFlag_toNat _ _)

/-- Settles O32: the flag, written last, says that V[x] was at least V[y]. -/
theorem subSetsNoBorrow : Obligations.SubSetsNoBorrow := fun _ _ _ =>
  exec_writeResultFlag_frame rfl (byte_sub_toNat _ _) (noBorrowFlag_toNat _ _)

/-- Settles O33: as O32 with the operands exchanged. -/
theorem subnSetsNoBorrow : Obligations.SubnSetsNoBorrow := fun _ _ _ =>
  exec_writeResultFlag_frame rfl (byte_sub_toNat _ _) (noBorrowFlag_toNat _ _)

/-- Settles O34: `a` is the model's shift operand, and the flag, written last, is the bit that leaves it. -/
theorem shiftsByOne : Obligations.ShiftsByOne := by
  intro x y s a ha
  rw [← shiftOperand_eq_ite] at ha
  subst ha
  exact ⟨exec_writeResultFlag_frame rfl (byte_shiftRight_one_toNat _) (shiftedOutRight_toNat _),
    exec_writeResultFlag_frame rfl (byte_shiftLeft_one_toNat _) (shiftedOutLeft_toNat _)⟩

/-- Settles O35: the draw is an argument of `rndWith`, so what it writes and leaves holds for each one. -/
theorem rndMasksAnyDraw : Obligations.RndMasksAnyDraw := by
  refine ⟨fun x kk s => ⟨_, rfl, rfl⟩, fun r x kk s => ⟨?_, rfl, rfl, ?_⟩⟩
  · simp [rndWith]
  · exact (((ChangesOnly.refl _ s).writeV (only_self x) _).countDraw rfl).advance

end Sys2Proof.Machine
end

section
/-! Family 43_index_memory: what the instructions that set I write to it (R181 to R183), and what LD B, Vx and the two
block instructions move between the registers and memory (R184 to R186). -/

namespace Sys2Proof.Machine

/-! ### The values written to I as numbers (R182, R183) -/

theorem word_add_zextByte_toNat (w : Word) (b : Byte) : (w + zextByte b).toNat = (w.toNat + b.toNat) % 65536 := by
  rw [zextByte]
  bv_omega

/-- A glyph's address never wraps: the font lies inside the store wherever FONT_BASE puts it (R9). -/
theorem glyphAddr_toNat (s : State) (d : Fin 16) : (s.glyphAddr d).toNat = s.config.fontBase.val + 5 * d.val := by
  have hbase : s.config.fontBase.val < 4096 - 80 := s.config.fontBase.isLt
  rw [State.glyphAddr, BitVec.toNat_ofNat]
  omega

/-- The increment after a block that left I and the parameters as they were (R185, R186). -/
theorem blockIncrement_i_toNat {s u : State} (hi : u.i = s.i) (hconfig : u.config = s.config)
    (hinc : s.config.loadStoreIncrementsI = true) (x : RegIdx) :
    (u.blockIncrement x).i.toNat = (s.i.toNat + x.val + 1) % 65536 := by
  rw [blockIncrement_i, hconfig, if_pos hinc, hi]
  bv_omega

/-! ### The decimal digits of a byte (R184) -/

theorem bcdDigits_hundreds_toNat (b : Byte) : (bcdDigits b).1.toNat = b.toNat / 100 := by
  rw [bcdDigits, BitVec.toNat_ofNat]
  omega

theorem bcdDigits_tens_toNat (b : Byte) : (bcdDigits b).2.1.toNat = b.toNat / 10 % 10 := by
  rw [bcdDigits, BitVec.toNat_ofNat]
  omega

theorem bcdDigits_ones_toNat (b : Byte) : (bcdDigits b).2.2.toNat = b.toNat % 10 := by
  rw [bcdDigits, BitVec.toNat_ofNat]
  omega

/-! ### Different data addresses (R65) -/

theorem dataAddr_ne (s : State) {j k : Nat} (hj : j < 4096) (hk : k < 4096) (hne : j ≠ k) :
    s.dataAddr j ≠ s.dataAddr k := fun h => hne (dataAddr_inj s hj hk h)

/-! ### What the family's instructions write -/

/-- An instruction that writes I and advances (R181 to R183). -/
theorem exec_setI_frame {i : Instr} {s : State} {w : Word} {n : Nat} (h : exec i s = .next (s.setI w).advance)
    (hw : w.toNat = n) :
    ∃ t, exec i s = .next t ∧ t.i.toNat = n ∧ t.pc = s.pc + 2 ∧ ChangesOnly { i := true } s t :=
  ⟨_, h, hw, rfl, ((ChangesOnly.refl _ s).setI rfl w).advance⟩

/-- The three digits lie at three different addresses, however I + 2 wraps, so no later digit hides an earlier one. -/
theorem execLdB_readByte {x : RegIdx} {s t : State} (h : execLdB x s = .next t) :
    t.readByte (s.dataAddr 0) = (bcdDigits (s.readV x)).1 ∧
      t.readByte (s.dataAddr 1) = (bcdDigits (s.readV x)).2.1 ∧
      t.readByte (s.dataAddr 2) = (bcdDigits (s.readV x)).2.2 := by
  cases h
  have h01 : s.dataAddr 0 ≠ s.dataAddr 1 := dataAddr_ne s (by decide) (by decide) (by decide)
  have h02 : s.dataAddr 0 ≠ s.dataAddr 2 := dataAddr_ne s (by decide) (by decide) (by decide)
  have h12 : s.dataAddr 1 ≠ s.dataAddr 2 := dataAddr_ne s (by decide) (by decide) (by decide)
  simp [h01, h02, h12]

/-- Loading a register moves no data address, so the bytes read are those that `s` addresses. -/
theorem execLoadRegs_readV {x k : RegIdx} {s t : State} (h : execLoadRegs x s = .next t) (hk : k ≤ x) :
    t.readV k = s.readByte (s.dataAddr k.val) := by
  cases h
  rw [readV_advance, blockIncrement_readV, loadBlock_readV, if_pos ((mem_regsUpTo x k).mpr hk), State.readData]

/-! ### The obligations of the family -/

/-- Settles O41: the bytes are those of `execStoreRegs_readByte`, and the frame is the row of R23. -/
theorem storeRegsWritesBlock : Obligations.StoreRegsWritesBlock := fun x s =>
  ⟨_, rfl, fun _ => execStoreRegs_readByte rfl,
    fun hinc => blockIncrement_i_toNat (storeBlock_i s _) (storeBlock_config s _) hinc x,
    exec_pc_of_next (i := .storeRegs x) rfl rfl, exec_changesOnly (i := .storeRegs x) rfl⟩

/-- Settles O42: the registers are those of `execLoadRegs_readV`, and the frame is the row of R23. -/
theorem loadRegsReadsBlock : Obligations.LoadRegsReadsBlock := fun x s =>
  ⟨_, rfl, fun _ => execLoadRegs_readV rfl,
    fun hinc => blockIncrement_i_toNat (loadBlock_i s _) (loadBlock_config s _) hinc x,
    exec_pc_of_next (i := .loadRegs x) rfl rfl, exec_changesOnly (i := .loadRegs x) rfl⟩

/-- Settles O37: a 12-bit address fits I. -/
theorem ldIWritesIndex : Obligations.LdIWritesIndex := fun nnn _ => exec_setI_frame rfl (zextAddr_toNat nnn)

/-- Settles O38: the sum wraps as the 16 bits of I do, and the frame names no register. -/
theorem addIWraps : Obligations.AddIWraps := fun _ _ => exec_setI_frame rfl (word_add_zextByte_toNat _ _)

/-- Settles O39: the digit is the low nibble, whose glyph's address does not wrap. -/
theorem ldFPointsAtGlyph : Obligations.LdFPointsAtGlyph := fun x s =>
  exec_setI_frame rfl (by rw [glyphAddr_toNat, lowNibble_val])

/-- Settles O40: each digit is read back at its address, and the frame is the row of R23. -/
theorem ldBStoresDigits : Obligations.LdBStoresDigits := by
  intro x s
  obtain ⟨h0, h1, h2⟩ := execLdB_readByte (x := x) (s := s) rfl
  refine ⟨_, rfl, ?_, ?_, ?_, exec_pc_of_next (i := .ldB x) rfl rfl, exec_changesOnly (i := .ldB x) rfl⟩
  · rw [h0, bcdDigits_hundreds_toNat]
  · rw [h1, bcdDigits_tens_toNat]
  · rw [h2, bcdDigits_ones_toNat]

end Sys2Proof.Machine
end

section
/-! Family 44_display: what CLS and DRW do to each pixel and to VF (R202, R203), what a second DRW of the same sprite
undoes (R204), and which instructions write or read the display (R205). -/

namespace Sys2Proof.Machine

/-! ### The pixels that the drawing loop hits are those that the sprite covers (R203) -/

theorem spriteBytes_length (s : State) (n : Nat) : (s.spriteBytes n).length = n := by
  simp [State.spriteBytes]

theorem spriteBytes_getElem?_eq_some {s : State} {n k : Nat} {b : Byte} :
    (s.spriteBytes n)[k]? = some b ↔ k < n ∧ s.readByte (s.dataAddr k) = b := by
  simp [State.spriteBytes, State.readData, List.getElem?_eq_some_iff]

section
variable {x y : RegIdx} {n : Fin 16} {s t u : State}

theorem rowsHit_spriteBytes (row : Fin displayH) (col : Fin displayW) :
    Display.rowsHit s.config.drwRowEdge ((s.readV x).toNat % displayW) ((s.readV y).toNat % displayH) 0
      (s.spriteBytes n.val) row col ↔ s.spriteCovers x y n row col := by
  simp only [Display.rowsHit, Display.rowHits, State.spriteCovers, spriteBytes_getElem?_eq_some, List.mem_range,
    Nat.zero_add]
  constructor
  · rintro ⟨r, -, ⟨hr, rfl⟩, hvisible, hrow, j, hj, hcol, hbit⟩
    exact ⟨r, j, hr, hj, hvisible, hrow, hcol, hbit⟩
  · rintro ⟨r, j, hr, hj, hvisible, hrow, hcol, hbit⟩
    exact ⟨r, _, ⟨hr, rfl⟩, hvisible, hrow, j, hj, hcol, hbit⟩

/-- What a sprite covers depends on its coordinates, its bytes and the parameters alone, so not on the display. -/
theorem spriteCovers_congr (hconfig : u.config = s.config) (hx : u.readV x = s.readV x) (hy : u.readV y = s.readV y)
    (hbytes : ∀ r, r < n.val → u.readByte (u.dataAddr r) = s.readByte (s.dataAddr r)) (row : Fin displayH)
    (col : Fin displayW) : u.spriteCovers x y n row col ↔ s.spriteCovers x y n row col := by
  unfold State.spriteCovers
  rw [hconfig, hx, hy]
  refine exists₂_congr fun r j => and_congr_right fun hr => ?_
  rw [hbytes r hr]

/-! ### What DRW does to each pixel and to VF (R203) -/

open Classical in
/-- DRW writes one display and then VF; a sprite has at most 15 rows, so no pixel is toggled twice. -/
theorem exec_drw_spec (x y : RegIdx) (n : Fin 16) (s : State) : ∃ (d : Display) (hit : Bool),
    exec (.drw x y n) s = .next ((s.setDisp d).writeV VF (flagByte hit)).advance ∧
    (∀ row col, d.pixel row col = (s.pixel row col ^^ decide (s.spriteCovers x y n row col))) ∧
    (hit = true ↔ ∃ row col, s.spriteCovers x y n row col ∧ s.pixel row col = true) := by
  have hlen : (s.spriteBytes n.val).length ≤ displayH := by
    rw [spriteBytes_length]
    exact n.isLt.le.trans (by decide)
  obtain ⟨hpixel, hhit⟩ := Display.drawRows_spec s.config.drwRowEdge ((s.readV x).toNat % displayW)
    ((s.readV y).toNat % displayH) 0 (s.spriteBytes n.val) hlen (s.disp, false)
  simp only [rowsHit_spriteBytes] at hpixel hhit
  refine ⟨_, _, rfl, hpixel, hhit.trans ?_⟩
  simp only [Bool.false_eq_true, false_or, and_comm]
  rfl

theorem exec_drw_pixel_of_covers (h : exec (.drw x y n) s = .next t) {row : Fin displayH} {col : Fin displayW}
    (hc : s.spriteCovers x y n row col) : t.pixel row col = !s.pixel row col := by
  obtain ⟨d, hit, hd, hpixel, -⟩ := exec_drw_spec x y n s
  cases hd.symm.trans h
  simp [hpixel, hc]

theorem exec_drw_pixel_of_not_covers (h : exec (.drw x y n) s = .next t) {row : Fin displayH} {col : Fin displayW}
    (hc : ¬s.spriteCovers x y n row col) : t.pixel row col = s.pixel row col := by
  obtain ⟨d, hit, hd, hpixel, -⟩ := exec_drw_spec x y n s
  cases hd.symm.trans h
  simp [hpixel, hc]

open Classical in
theorem exec_drw_readV_VF (h : exec (.drw x y n) s = .next t) :
    t.readV VF = if ∃ row col, s.spriteCovers x y n row col ∧ s.pixel row col = true then 1 else 0 := by
  obtain ⟨d, hit, hd, -, hhit⟩ := exec_drw_spec x y n s
  cases hd.symm.trans h
  simp [← hhit, flagByte]

end

/-! ### Which instructions write or read the display (R205) -/

theorem writesOf_disp {i : Instr} {s : State} (h : (writesOf i s).disp = true) :
    (∃ ign, i = .cls ign) ∨ ∃ x y n, i = .drw x y n := by
  cases i
  case cls ign => exact .inl ⟨ign, rfl⟩
  case drw x y n => exact .inr ⟨x, y, n, rfl⟩
  all_goals cases h

/-- An instruction that is neither CLS nor DRW commutes with a change of the display. -/
theorem exec_setDisp {i : Instr} {s t : State} (h : exec i s = .next t) (hdrw : ∀ x y n, i ≠ .drw x y n)
    (hcls : ∀ ign, i ≠ .cls ign) (d : Display) : exec i (s.setDisp d) = .next (t.setDisp d) := by
  cases i
  case cls ign => exact absurd rfl (hcls ign)
  case drw x y n => exact absurd rfl (hdrw x y n)
  case ret ign =>
    obtain ⟨rest, a, hs, rfl⟩ := execRet_next h
    exact exec_ret_of_stack (s := s.setDisp d) hs ign
  case call nnn =>
    obtain ⟨hs, rfl⟩ := execCall_next h
    exact exec_call_of_lt (s := s.setDisp d) hs nnn
  case orReg x y | andReg x y | xorReg x y =>
    cases h
    exact congrArg (Host.Outcome.next ∘ State.advance) (logicReset_setDisp (s.writeV x _) d)
  case storeRegs x =>
    cases h
    simp only [exec, execStoreRegs, storeBlock_setDisp, blockIncrement_setDisp]
    rfl
  case loadRegs x =>
    cases h
    simp only [exec, execLoadRegs, loadBlock_setDisp, blockIncrement_setDisp]
    rfl
  all_goals
    cases h
    rfl

/-! ### The obligations of the family -/

/-- Settles O45: the pixels and VF are those of the drawing loop, and the frame is the row of R23. -/
theorem drwTogglesCoveredPixels : Obligations.DrwTogglesCoveredPixels := by
  intro x y n s
  obtain ⟨t, h⟩ : ∃ t, exec (.drw x y n) s = .next t := ⟨_, rfl⟩
  exact ⟨t, h, fun _ _ => exec_drw_pixel_of_covers h, fun _ _ => exec_drw_pixel_of_not_covers h,
    fun hon => (exec_drw_readV_VF h).trans (if_pos hon), fun hoff => (exec_drw_readV_VF h).trans (if_neg hoff),
    exec_pc_of_next rfl h, exec_changesOnly h⟩

/-- Settles O46: both draws cover the same pixels, so each covered pixel is toggled twice, and the second draw finds it
on when it was off. -/
theorem doubleDrawRestoresBuffer : Obligations.DoubleDrawRestoresBuffer := by
  intro x y n s u
  obtain ⟨t, ht⟩ : ∃ t, exec (.drw x y n) s = .next t := ⟨_, rfl⟩
  refine ⟨t, ht, fun hdisp hconfig hx hy hbytes => ?_⟩
  obtain ⟨w, hw⟩ : ∃ w, exec (.drw x y n) u = .next w := ⟨_, rfl⟩
  have hcovers := spriteCovers_congr hconfig hx hy hbytes
  have hfirst {row col} (hc : s.spriteCovers x y n row col) : u.pixel row col = !s.pixel row col :=
    (pixel_congr hdisp row col).trans (exec_drw_pixel_of_covers ht hc)
  refine ⟨w, hw, fun row col => ?_, ?_⟩
  · by_cases hc : s.spriteCovers x y n row col
    · rw [exec_drw_pixel_of_covers hw ((hcovers row col).mpr hc), hfirst hc, Bool.not_not]
    · rw [exec_drw_pixel_of_not_covers hw (mt (hcovers row col).mp hc), pixel_congr hdisp,
        exec_drw_pixel_of_not_covers ht hc]
  · have hon (row col) : u.spriteCovers x y n row col ∧ u.pixel row col = true ↔
        s.spriteCovers x y n row col ∧ s.pixel row col = false := by
      rw [hcovers]
      exact and_congr_right fun hc => by rw [hfirst hc, Bool.not_eq_true']
    simp [exec_drw_readV_VF hw, hon]

/-- Settles O47: only CLS and DRW have the display in their row of R23, and the meaning of no other reads it. -/
theorem onlyDisplayInstructionsTouchDisplay : Obligations.OnlyDisplayInstructionsTouchDisplay := by
  refine ⟨fun i s t h hne => ?_, fun i s t d h hdrw hcls => exec_setDisp h hdrw hcls d, fun _ _ _ => rfl⟩
  exact writesOf_disp ((Bool.eq_false_or_eq_true _).resolve_right fun hoff => hne ((exec_changesOnly h).disp hoff))

/-- Settles O44: the new display is `Display.clear`, whose pixels are all off. -/
theorem clsClearsDisplay : Obligations.ClsClearsDisplay := fun ign _ =>
  ⟨_, rfl, Display.clear_pixel, exec_pc_of_next (i := .cls ign) rfl rfl, exec_changesOnly (i := .cls ign) rfl⟩

end Sys2Proof.Machine
end

section
/-! Family 45_input_timers: which key a poll takes and how long a wait holds (R223, R224, R301), the key skips (R221,
R222), the timer transfers (R225 to R227), and which instructions read or write the timers (R228). -/

namespace Sys2Proof.Machine

/-! ### The lowest newly pressed key (R224) -/

theorem lowestNewPress_eq_none_iff (seen now : Keys) : lowestNewPress seen now = none ↔ ∀ k, ¬newPress seen now k := by
  simp [lowestNewPress, newPress]

theorem lowestNewPress_eq_some_iff (seen now : Keys) (k : KeyIdx) :
    lowestNewPress seen now = some k ↔ newPress seen now k ∧ ∀ j, newPress seen now j → k ≤ j := by
  rw [lowestNewPress, List.find?_eq_some_iff_getElem]
  simp only [Bool.and_eq_true, Bool.not_eq_true', List.getElem_finRange]
  constructor
  · rintro ⟨hk, i, hi, rfl, hlow⟩
    refine ⟨hk, fun j ⟨hnow, hseen⟩ => Fin.le_def.mpr (Nat.le_of_not_lt fun hlt => ?_)⟩
    simpa [hnow, hseen] using hlow j.val hlt
  · rintro ⟨hk, hlow⟩
    refine ⟨hk, k.val, by simp, rfl, fun j hj => ?_⟩
    have hnot := mt (hlow ⟨j, hj.trans k.isLt⟩) (Nat.not_le.mpr hj)
    simpa [newPress] using hnot

theorem not_newPress_self (keys : Keys) (k : KeyIdx) : ¬newPress keys keys k := by
  simp [newPress]

/-- One key that was not pressed is pressed: it is the new press, and the only one. -/
theorem lowestNewPress_setKey {s : State} {k : KeyIdx} (hk : s.key k = false) :
    lowestNewPress s.keys (s.setKey k true).keys = some k := by
  refine (lowestNewPress_eq_some_iff _ _ _).mpr ⟨⟨by simp, hk⟩, fun j ⟨hnow, hseen⟩ => ?_⟩
  have hj : (s.setKey k true).key j = true := hnow
  have hold : s.key j = false := hseen
  rw [key_setKey] at hj
  by_cases hjk : j = k
  · exact hjk.ge
  · simp [hjk, hold] at hj

/-! ### A step of a pending wait (R112, R224) -/

section
variable {s : State} {w : KeyWait}

theorem step_of_newPress {k : KeyIdx} (hw : s.wait = some w) (hk : lowestNewPress w.seen s.keys = some k) :
    step s = .next ((s.writeV w.dest (BitVec.ofNat 8 k.val)).setWait none).advance := by
  rw [step_of_wait hw, keyWaitPoll_of_some hk]

theorem step_of_no_newPress (hw : s.wait = some w) (hk : ∀ k, ¬newPress w.seen s.keys k) :
    step s = .next (s.setWait (some ⟨w.dest, s.keys⟩)) := by
  rw [step_of_wait hw, keyWaitPoll_of_none ((lowestNewPress_eq_none_iff _ _).mpr hk)]

/-- A key's number fits the register it is written to. -/
theorem readV_writeV_key_toNat (s : State) (x : RegIdx) (k : KeyIdx) :
    ((s.writeV x (BitVec.ofNat 8 k.val)).readV x).toNat = k.val := by
  rw [readV_writeV, if_pos rfl, BitVec.toNat_ofNat]
  omega

theorem run_succ_of_next {t : State} (h : step s = .next t) (n : Nat) :
    Host.Core.run core (n + 1) s = Host.Core.run core n t := by
  simp [Host.Core.run, core, h]

/-- The first poll remembers the present keys, so no later poll sees a new press either (R301). -/
theorem run_of_no_newPress (n : Nat) (hw : s.wait = some w) (hk : ∀ k, ¬newPress w.seen s.keys k) :
    ∃ seen, Host.Core.run core n s = .next (s.setWait (some ⟨w.dest, seen⟩)) := by
  induction n generalizing s w with
  | zero => exact ⟨w.seen, by rw [← hw]; rfl⟩
  | succ n ih =>
    rw [run_succ_of_next (step_of_no_newPress hw hk)]
    exact ih (s := s.setWait _) (w := ⟨w.dest, s.keys⟩) rfl (not_newPress_self s.keys)

end

/-! ### The frame of a key press (R272) -/

theorem ChangesOnly.setKey {w : Writes} {s t : State} (h : ChangesOnly w s t) (hk : w.keys = true) (k : KeyIdx)
    (p : Bool) : ChangesOnly w s (t.setKey k p) :=
  { h with keys := by simp [hk] }

/-! ### Which instructions write or read the timers (R228) -/

section
variable {i : Instr} {s t : State}

theorem writesOf_dt (hdt : ∀ x, i ≠ .ldDTVx x) : (writesOf i s).dt = false := by
  cases i
  case ldDTVx x => exact absurd rfl (hdt x)
  all_goals rfl

theorem writesOf_st (hst : ∀ x, i ≠ .ldSTVx x) : (writesOf i s).st = false := by
  cases i
  case ldSTVx x => exact absurd rfl (hst x)
  all_goals rfl

theorem exec_dt (h : exec i s = .next t) (hdt : ∀ x, i ≠ .ldDTVx x) : t.dt = s.dt :=
  (exec_changesOnly h).dt (writesOf_dt hdt)

theorem exec_st (h : exec i s = .next t) (hst : ∀ x, i ≠ .ldSTVx x) : t.st = s.st :=
  (exec_changesOnly h).st (writesOf_st hst)

theorem setDT_of_dt {b : Byte} (h : s.dt = b) : s.setDT b = s := by
  rw [← h]
  rfl

theorem setST_setDT_of_st {d b : Byte} (h : s.st = b) : (s.setDT d).setST b = s.setDT d := by
  rw [← h]
  rfl

/-- An instruction that is none of the three timer transfers commutes with a change of both timers. -/
theorem exec_setTimers (h : exec i s = .next t) (hread : ∀ x, i ≠ .ldVxDT x) (hdt : ∀ x, i ≠ .ldDTVx x)
    (hst : ∀ x, i ≠ .ldSTVx x) (d b : Byte) :
    exec i ((s.setDT d).setST b) = .next ((t.setDT d).setST b) := by
  cases i
  case ldVxDT x => exact absurd rfl (hread x)
  case ldDTVx x => exact absurd rfl (hdt x)
  case ldSTVx x => exact absurd rfl (hst x)
  case ret ign =>
    obtain ⟨rest, a, hs, rfl⟩ := execRet_next h
    exact exec_ret_of_stack (s := (s.setDT d).setST b) hs ign
  case call nnn =>
    obtain ⟨hs, rfl⟩ := execCall_next h
    exact exec_call_of_lt (s := (s.setDT d).setST b) hs nnn
  case orReg x y | andReg x y | xorReg x y =>
    cases h
    have hreset (u : State) : ((u.setDT d).setST b).logicReset = (u.logicReset.setDT d).setST b := by
      rw [logicReset_setST, logicReset_setDT]
    exact congrArg (Host.Outcome.next ∘ State.advance) (hreset (s.writeV x _))
  case storeRegs x =>
    cases h
    simp only [exec, execStoreRegs, storeBlock_setST, storeBlock_setDT, blockIncrement_setST, blockIncrement_setDT]
    rfl
  case loadRegs x =>
    cases h
    simp only [exec, execLoadRegs, loadBlock_setST, loadBlock_setDT, blockIncrement_setST, blockIncrement_setDT]
    rfl
  all_goals
    cases h
    rfl

/-- No instruction reads ST (R228): the two transfers of DT commute with a change of it as well. -/
theorem exec_setST (h : exec i s = .next t) (hst : ∀ x, i ≠ .ldSTVx x) (b : Byte) :
    exec i (s.setST b) = .next (t.setST b) := by
  cases i
  case ldSTVx x => exact absurd rfl (hst x)
  case ldVxDT x | ldDTVx x => cases h; rfl
  all_goals
    have hboth := exec_setTimers h nofun nofun nofun s.dt b
    rwa [setDT_of_dt rfl, setDT_of_dt (exec_dt h nofun)] at hboth

/-- LD Vx, DT alone reads DT (R228): LD ST, Vx commutes with a change of it as well. -/
theorem exec_setDT (h : exec i s = .next t) (hread : ∀ x, i ≠ .ldVxDT x) (hdt : ∀ x, i ≠ .ldDTVx x) (b : Byte) :
    exec i (s.setDT b) = .next (t.setDT b) := by
  cases i
  case ldVxDT x => exact absurd rfl (hread x)
  case ldDTVx x => exact absurd rfl (hdt x)
  case ldSTVx x => cases h; rfl
  all_goals
    have hboth := exec_setTimers h nofun nofun nofun b s.st
    rwa [setST_setDT_of_st rfl, setST_setDT_of_st (exec_st h nofun)] at hboth

end

/-- A host action that is no step leaves both timers, but for a tick and a reset (R228). -/
theorem apply_timers {a : HostAction} {h k : Session} (e : a.apply h = some k) (hstep : a ≠ .step) :
    (a = .tick ∨ a = .reset) ∨ (k.machine.dt = h.machine.dt ∧ k.machine.st = h.machine.st) := by
  obtain ⟨-, ⟨rfl, -⟩ | ⟨f, rfl, -⟩ | ⟨rfl, -⟩ | ⟨i, p, -, hm, -⟩ | ⟨rom, -, -, hm | hm⟩ | ⟨rfl, -⟩ | ⟨-, -, hm, -⟩ |
    ⟨-, hm, -⟩⟩ := apply_cases e
  · exact absurd rfl hstep
  · exact absurd rfl hstep
  · exact .inl (.inl rfl)
  · exact .inr (by simp [hm])
  · exact .inr (by simp [hm])
  · exact .inr (by simp [hm])
  · exact .inl (.inr rfl)
  · exact .inr (by simp [hm])
  · exact .inr (by simp [hm])

/-! ### The obligations of the family -/

/-- Settles O17: the key that the statement names is the one that the poll finds, and it finds none when there is none. -/
theorem pollTakesLowestNewPress : Obligations.PollTakesLowestNewPress := by
  refine fun s w hw => ⟨fun k hk hlow => ?_, fun hk => ?_⟩
  · have hkey : lowestNewPress w.seen s.keys = some k := (lowestNewPress_eq_some_iff _ _ k).mpr ⟨hk, hlow⟩
    exact ⟨_, step_of_newPress hw hkey, readV_writeV_key_toNat _ _ k, rfl, rfl,
      (((ChangesOnly.refl _ s).writeV (only_self w.dest) _).setWait rfl none).advance⟩
  · exact ⟨_, step_of_no_newPress hw hk, rfl, rfl, (ChangesOnly.refl _ s).setWait rfl _⟩

/-- Settles O18: every state of the run is `s` with other remembered keys. -/
theorem waitHoldsWithoutNewPress : Obligations.WaitHoldsWithoutNewPress := by
  intro n s w hw hk
  obtain ⟨seen, hrun⟩ := run_of_no_newPress n hw hk
  exact ⟨_, hrun, rfl, ⟨seen, rfl⟩, (ChangesOnly.refl _ s).setWait rfl _⟩

/-- Settles O49: the wait begins with the present keys, so the one key pressed after it is the one new press. -/
theorem ldKBeginsWait : Obligations.LdKBeginsWait := by
  intro x s
  refine ⟨s.setWait (some ⟨x, s.keys⟩), rfl, rfl, rfl, (ChangesOnly.refl _ s).setWait rfl _, fun k hk => ?_⟩
  have hstep := step_of_newPress (s := (s.setWait (some ⟨x, s.keys⟩)).setKey k true) rfl (lowestNewPress_setKey hk)
  exact ⟨_, hstep, readV_writeV_key_toNat _ _ k, rfl, rfl,
    (((((ChangesOnly.refl _ s).setWait rfl _).setKey rfl k true).writeV (only_self x) _).setWait rfl none).advance⟩

/-- Settles O51: who writes is in the rows of R23 and in the host's actions; who reads, in what the instructions commute
with. -/
theorem timerReadersAndWriters : Obligations.TimerReadersAndWriters := by
  refine ⟨fun _ _ _ b h hst => exec_setST h hst b, fun _ _ _ => rfl, fun _ _ _ b h hread hdt => exec_setDT h hread hdt b,
    fun _ _ _ => rfl, fun i s t h => ⟨fun hne => ?_, fun hne => ?_⟩, fun s w => ?_, fun a h k hstep e hne => ?_⟩
  · by_contra hno
    exact hne (exec_dt h (not_exists.mp hno))
  · by_contra hno
    exact hne (exec_st h (not_exists.mp hno))
  · have hpoll := keyWaitPoll_changesOnly s w
    exact ⟨hpoll.dt rfl, hpoll.st rfl⟩
  · refine (apply_timers e hstep).resolve_right fun ⟨hdt, hst⟩ => ?_
    exact hne.elim (· hdt) (· hst)

/-- Settles O48: the condition of SKP is that key `V[x] mod 16` is pressed, that of SKNP that it is not. -/
theorem skipsOnKey : Obligations.SkipsOnKey := by
  intro x s k hk
  exact ⟨exec_skip_frame rfl (by simp [skipCondition, State.key, hk]),
    exec_skip_frame rfl (by simp [skipCondition, State.key, hk])⟩

/-- Settles O50: each meaning is one write, and sound is active exactly when ST is not 0 (R268). -/
theorem timerTransfers : Obligations.TimerTransfers := by
  refine fun x s => ⟨exec_writeV_frame rfl, ⟨_, rfl, rfl, rfl, ?_⟩, ⟨_, rfl, rfl, rfl, decide_eq_true_iff, ?_⟩⟩
  · exact ((ChangesOnly.refl _ s).setDT rfl _).advance
  · exact ((ChangesOnly.refl _ s).setST rfl _).advance

end Sys2Proof.Machine
end

section
/-! Family 60_exceptions: which error a step raises (R250 to R257), what a host action does to a session (R260, R261,
R265, R272, R273, R277), the timer law of a run (R269), and the invariant along a run. -/

namespace Sys2Proof.Machine

/-! ### Which error an instruction and a step raise (R257) -/

section
variable {i : Instr} {s : State} {e : Fault}

/-- Only CALL and RET raise an error of their own, and each carries its own word (R254, R255). -/
theorem exec_eq_fault_iff : exec i s = .fault e ↔
    (∃ nnn, i = .call nnn ∧ stackDepth ≤ s.stack.length ∧ e = .stackOverflow (encode i)) ∨
    (∃ ign, i = .ret ign ∧ s.stack = [] ∧ e = .stackUnderflow (encode i)) := by
  constructor
  · intro h
    cases i
    case call nnn =>
      rcases Nat.lt_or_ge s.stack.length stackDepth with hs | hs
      · rw [exec_call_of_lt hs] at h
        cases h
      · rw [exec_call_of_ge hs] at h
        cases h
        exact .inl ⟨nnn, rfl, hs, rfl⟩
    case ret ign =>
      rcases List.eq_nil_or_concat' s.stack with hs | ⟨rest, a, hs⟩
      · rw [exec_ret_of_nil hs] at h
        cases h
        exact .inr ⟨ign, rfl, hs, rfl⟩
      · rw [exec_ret_of_stack hs] at h
        cases h
    all_goals cases h
  · rintro (⟨nnn, rfl, hs, rfl⟩ | ⟨ign, rfl, hs, rfl⟩)
    · exact exec_call_of_ge hs nnn
    · exact exec_ret_of_nil hs ign

theorem step_eq_fault_iff : step s = .fault e ↔
    s.wait = none ∧ (s.fetchInstr = .error e ∨ ∃ i, s.fetchInstr = .ok i ∧ exec i s = .fault e) := by
  cases hw : s.wait with
  | some w => simp [step_of_wait hw]
  | none =>
    cases hf : s.fetchInstr with
    | error f => simp [step_of_fetch_error hw hf]
    | ok i => simp [step_of_fetch_ok hw hf]

/-- An InvalidOpcode is the decode's error: no wait was pending and the bound of the fetch held (R257). -/
theorem step_invalidOpcode {op : Word} (h : step s = .fault (.invalidOpcode op)) :
    s.wait = none ∧ s.pc.toNat + 1 < memSize := by
  obtain ⟨hw, hf | ⟨i, hf, -⟩⟩ := step_eq_fault_iff.mp h
  · rcases fetchInstr_error hf with ⟨-, he⟩ | ⟨hlt, -⟩
    · cases he
    · exact ⟨hw, hlt⟩
  · exact ⟨hw, (fetchInstr_ok hf).1⟩

end

/-! ### Host actions that may be performed while the run goes on (R273) -/

section
variable {h : Session} {e : Fault}

theorem apply_step_of_not_ended (he : h.ended = false) : HostAction.step.apply h = h.callStep := by
  simp [HostAction.apply, he, aborted_of_not_ended he]

theorem apply_tick_of_not_ended (he : h.ended = false) :
    HostAction.tick.apply h = some { h with machine := h.machine.tick } := by
  simp [HostAction.apply, he, aborted_of_not_ended he]

theorem apply_setKey_of_not_ended (he : h.ended = false) (k : KeyIdx) (p : Bool) :
    (HostAction.setKey k p).apply h = some { h with machine := h.machine.setKey k p } := by
  simp [HostAction.apply, he, aborted_of_not_ended he]

theorem apply_skipInvalid_of_maySkip (he : h.ended = false) (hs : h.maySkip = true) :
    HostAction.skipInvalid.apply h = some { h with machine := h.machine.skipInvalid, error := none } := by
  simp [HostAction.apply, he, aborted_of_not_ended he, hs]

theorem apply_skipInvalid_of_no_error (he : h.error = none) : HostAction.skipInvalid.apply h = none := by
  simp [HostAction.apply, Session.maySkip, he]

/-! ### The error of a step and the end of a run (R251, R260, R277) -/

theorem callStep_of_fault (hf : step h.machine = .fault e) : h.callStep = some { h with error := some e } := by
  simp [Session.callStep, hf]

theorem haltsRun_eq_false_iff (c : Config) (e : Fault) :
    haltsRun c e = false ↔ (∃ op, e = .invalidOpcode op) ∧ c.invalidOpcodePolicy = .skip := by
  cases e with
  | invalidOpcode op => cases hp : c.invalidOpcodePolicy <;> simp [haltsRun, hp]
  | memoryFault | stackOverflow | stackUnderflow => simp [haltsRun]

theorem ended_of_error (ha : h.aborted = false) (he : h.error = some e) :
    h.ended = haltsRun h.machine.config e := by
  simp [Session.ended, ha, he]

theorem ended_of_no_error (ha : h.aborted = false) (he : h.error = none) : h.ended = false := by
  simp [Session.ended, ha, he]

theorem maySkip_of_invalidOpcode {op : Word} (he : h.error = some (.invalidOpcode op))
    (hp : h.machine.config.invalidOpcodePolicy = .skip) : h.maySkip = true := by
  simp [Session.maySkip, he, hp]

/-- The skip of an unanswered InvalidOpcode under the policy `skip`: PC + 2, and the run goes on (R260). -/
theorem skipInvalid_answers_error {op : Word} (ha : h.aborted = false) (he : h.error = some (.invalidOpcode op))
    (hp : h.machine.config.invalidOpcodePolicy = .skip) :
    ∃ t, HostAction.skipInvalid.apply h = some t ∧ t.machine.pc = h.machine.pc + 2 ∧
      ChangesOnly {} h.machine t.machine ∧ t.error = none ∧ t.ended = false := by
  have hend : h.ended = false := (ended_of_error ha he).trans ((haltsRun_eq_false_iff _ _).mpr ⟨⟨op, rfl⟩, hp⟩)
  exact ⟨_, apply_skipInvalid_of_maySkip hend (maySkip_of_invalidOpcode he hp), rfl,
    (ChangesOnly.refl {} h.machine).advance, rfl, ended_of_no_error ha rfl⟩

end

/-- Only a reset and a skip answer an error (R261). -/
theorem apply_answers_error {a : HostAction} {h k : Session} (hne : h.error ≠ none) (e : a.apply h = some k)
    (hk : k.error = none) : a = .reset ∨ (a = .skipInvalid ∧ k.machine.pc = h.machine.pc + 2) := by
  obtain ⟨-, ⟨-, hh, -⟩ | ⟨f, -, -, -, hf⟩ | ⟨-, -, hh⟩ | ⟨i, p, -, -, hh⟩ | ⟨rom, -, hh, -⟩ | ⟨rfl, -⟩ |
    ⟨rfl, -, hm, -⟩ | ⟨-, -, hh⟩⟩ := apply_cases e
  · exact absurd hh hne
  · rw [hk] at hf
    cases hf
  · exact absurd (hh.symm.trans hk) hne
  · exact absurd (hh.symm.trans hk) hne
  · exact absurd (hh.symm.trans hk) hne
  · exact .inl rfl
  · exact .inr ⟨rfl, by rw [hm, advance_pc]⟩
  · exact absurd (hh.symm.trans hk) hne

/-! ### Ticks (R265, R269) -/

theorem countDown_toNat (b : Byte) : (countDown b).toNat = b.toNat - 1 := by
  unfold countDown
  split
  · rename_i hb
    simp [hb]
  · bv_omega

theorem ChangesOnly.tick {w : Writes} {s t : State} (h : ChangesOnly w s t) (hdt : w.dt = true) (hst : w.st = true) :
    ChangesOnly w s t.tick := (h.setDT hdt _).setST hst _

theorem ChangesOnly.ticks {w : Writes} {s t : State} (h : ChangesOnly w s t) (hdt : w.dt = true) (hst : w.st = true)
    (n : Nat) : ChangesOnly w s (t.ticks n) := by
  induction n generalizing t with
  | zero => exact h
  | succ n ih => exact ih (h.tick hdt hst)

theorem ticks_pc (n : Nat) (s : State) : (s.ticks n).pc = s.pc := by
  induction n generalizing s with
  | zero => rfl
  | succ n ih => exact ih s.tick

/-- A tick changes nothing that ends a run, so another may follow it. -/
theorem runHost_replicate_tick (n : Nat) {h : Session} (he : h.ended = false) :
    runHost (List.replicate n .tick) h = some { h with machine := h.machine.ticks n } := by
  induction n generalizing h with
  | zero => rfl
  | succ n ih =>
    have hrest := ih (h := { h with machine := h.machine.tick }) he
    simpa [List.replicate_succ, runHost, he, apply_tick_of_not_ended he, State.ticks] using hrest

/-! ### The timers along a run (R228, R269) -/

theorem executes_of_fetch_ok {s : State} {i : Instr} (hw : s.wait = none) (hf : s.fetchInstr = .ok i) :
    s.executes = [i] := by
  simp [State.executes, hw, hf]

section
variable {s t : State}

theorem step_dt (h : step s = .next t) (hdt : ∀ x, .ldDTVx x ∉ s.executes) : t.dt = s.dt := by
  rcases step_next_cases h with ⟨w, -, rfl⟩ | ⟨hw, i, hf, hi⟩
  · exact (keyWaitPoll_changesOnly s w).dt rfl
  · rw [executes_of_fetch_ok hw hf] at hdt
    exact exec_dt hi fun x hx => hdt x (by simp [hx])

theorem step_st (h : step s = .next t) (hst : ∀ x, .ldSTVx x ∉ s.executes) : t.st = s.st := by
  rcases step_next_cases h with ⟨w, -, rfl⟩ | ⟨hw, i, hf, hi⟩
  · exact (keyWaitPoll_changesOnly s w).st rfl
  · rw [executes_of_fetch_ok hw hf] at hst
    exact exec_st hi fun x hx => hst x (by simp [hx])

end

theorem apply_step_cases {h k : Session} (e : HostAction.step.apply h = some k) :
    step h.machine = .next k.machine ∨ k.machine = h.machine := by
  obtain ⟨-, ⟨-, -, hm, -⟩ | ⟨f, -, -, hm, -⟩ | ⟨ha, -⟩ | ⟨i, p, ha, -⟩ | ⟨rom, ha, -⟩ | ⟨ha, -⟩ | ⟨ha, -⟩ |
    ⟨ha | ha | ha, -⟩⟩ := apply_cases e
  · exact .inl hm
  · exact .inr hm
  all_goals cases ha

theorem apply_tick_machine {h k : Session} (e : HostAction.tick.apply h = some k) : k.machine = h.machine.tick := by
  obtain ⟨-, ⟨ha, -⟩ | ⟨f, ha, -⟩ | ⟨-, hm, -⟩ | ⟨i, p, ha, -⟩ | ⟨rom, ha, -⟩ | ⟨ha, -⟩ | ⟨ha, -⟩ |
    ⟨ha | ha | ha, -⟩⟩ := apply_cases e
  case inr.inr.inl => exact hm
  all_goals cases ha

theorem instrsOfRun_cons {a : HostAction} {h k : Session} (e : a.apply h = some k) (rest : List HostAction) :
    instrsOfRun (a :: rest) h = (if a = .step then h.machine.executes else []) ++ instrsOfRun rest k := by
  simp [instrsOfRun, e]

theorem apply_other_timers {a : HostAction} {h k : Session} (e : a.apply h = some k) (hstep : a ≠ .step)
    (htick : a ≠ .tick) (hreset : a ≠ .reset) : k.machine.dt = h.machine.dt ∧ k.machine.st = h.machine.st :=
  (apply_timers e hstep).resolve_left (not_or.mpr ⟨htick, hreset⟩)

/-! The timer law for any counter of the machine: a tick counts it down, a step leaves it unless it executes one of the
instructions that write it, and the other actions, a reset excepted, leave it. -/

section
variable {counter : State → Byte} {writer : RegIdx → Instr}
  (htick : ∀ s : State, counter s.tick = countDown (counter s))
  (hstep : ∀ s t : State, step s = .next t → (∀ x, writer x ∉ s.executes) → counter t = counter s)
  (hother : ∀ (a : HostAction) (h k : Session), a.apply h = some k → a ≠ .step → a ≠ .tick → a ≠ .reset →
    counter k.machine = counter h.machine)
include htick hstep hother

theorem apply_counter {a : HostAction} {h k : Session} (e : a.apply h = some k) (hreset : a ≠ .reset)
    (hwrite : a = .step → ∀ x, writer x ∉ h.machine.executes) :
    (counter k.machine).toNat = (counter h.machine).toNat - [a].count .tick := by
  by_cases htk : a = .tick
  · subst htk
    rw [apply_tick_machine e, htick, countDown_toNat, List.count_singleton_self]
  · rw [List.count_eq_zero.mpr (by simpa using Ne.symm htk), Nat.sub_zero]
    by_cases hst : a = .step
    · subst hst
      rcases apply_step_cases e with hm | hm
      · rw [hstep _ _ hm (hwrite rfl)]
      · rw [hm]
    · rw [hother a h k e hst htk hreset]

theorem runHost_counter {actions : List HostAction} {h k : Session} (e : runHost actions h = some k)
    (hreset : .reset ∉ actions) (hwrite : ∀ x, writer x ∉ instrsOfRun actions h) :
    (counter k.machine).toNat = (counter h.machine).toNat - actions.count .tick := by
  induction actions generalizing h with
  | nil =>
    cases e
    rfl
  | cons a rest ih =>
    obtain ⟨-, m, ha, hrun⟩ := runHost_cons e
    obtain ⟨hne, hreset⟩ := not_or.mp (mt List.mem_cons.mpr hreset)
    simp only [instrsOfRun_cons ha, List.mem_append, not_or] at hwrite
    have hfirst := apply_counter htick hstep hother ha (Ne.symm hne) fun hst x => by simpa [hst] using (hwrite x).1
    rw [ih hrun hreset fun x => (hwrite x).2, hfirst, Nat.sub_sub, ← List.count_append, List.singleton_append]

end

/-! ### The invariant along a run (R115, R251, R273, R277) -/

/-- The invariant speaks of memory, the stack, PC and the wait alone. -/
theorem State.Inv.of_frame {s t : State} (hs : s.Inv) (hmem : t.memWf) (hstack : t.stack = s.stack) (hpc : t.pc = s.pc)
    (hwait : t.wait = s.wait) : t.Inv where
  mem_canonical := hmem
  stack_depth := hstack ▸ hs.stack_depth
  stack_entries := hstack ▸ hs.stack_entries
  pc_range := hpc ▸ hs.pc_range
  wait_pc := by
    rw [hpc, hwait]
    exact hs.wait_pc

/-- The skip starts at a fetched word, so PC stays in the bound of R115. -/
theorem advance_inv {s : State} (hs : s.Inv) (hw : s.wait = none) (hpc : s.pc.toNat + 1 < 4096) : s.advance.Inv where
  mem_canonical := hs.mem_canonical
  stack_depth := hs.stack_depth
  stack_entries := hs.stack_entries
  pc_range := by
    rw [advance_pc]
    bv_omega
  wait_pc hne := absurd hw hne

theorem hostReset_inv (s : State) : s.hostReset.Inv :=
  (resetWith_inv s.config).of_frame (resetWith_memWf s.config) rfl rfl rfl

theorem writeBytes_inv {s : State} (hs : s.Inv) (a : Nat) (bs : List Byte) : (s.writeBytes a bs).Inv :=
  hs.of_frame (writeBytes_memWf bs hs.mem_canonical a) (by simp) (by simp) (by simp)

theorem Session.Inv.of_no_error {h : Session} (hm : h.machine.Inv) (he : h.error = none) : h.Inv where
  machine := hm
  invalid_pc op hop := by simp [he] at hop

theorem Session.Inv.of_frame {h k : Session} (hi : h.Inv) (hmem : k.machine.memWf)
    (hstack : k.machine.stack = h.machine.stack) (hpc : k.machine.pc = h.machine.pc)
    (hwait : k.machine.wait = h.machine.wait) (he : k.error = h.error) : k.Inv where
  machine := hi.machine.of_frame hmem hstack hpc hwait
  invalid_pc := by
    rw [he, hwait, hpc]
    exact hi.invalid_pc

theorem Session.Inv.of_machine_eq {h k : Session} (hi : h.Inv) (hm : k.machine = h.machine) (he : k.error = h.error) :
    k.Inv :=
  hi.of_frame (hm ▸ hi.machine.mem_canonical) (by rw [hm]) (by rw [hm]) (by rw [hm]) he

theorem apply_inv {a : HostAction} {h k : Session} (hi : h.Inv) (e : a.apply h = some k) : k.Inv := by
  have hmem : h.machine.memWf := hi.machine.mem_canonical
  obtain ⟨-, ⟨-, -, hm, he⟩ | ⟨f, -, hf, hm, he⟩ | ⟨-, hm, he⟩ | ⟨i, p, -, hm, he⟩ | ⟨rom, -, he, hm | hm⟩ |
    ⟨-, hm, he⟩ | ⟨-, hs, hm, he⟩ | ⟨-, hm, he⟩⟩ := apply_cases e
  · exact .of_no_error (step_inv hi.machine hm) he
  · refine ⟨hm ▸ hi.machine, fun op hop => ?_⟩
    rw [he, Option.some.injEq] at hop
    rw [hm]
    exact step_invalidOpcode (hop ▸ hf)
  · exact hi.of_frame (hm ▸ hmem) (by simp [hm]) (by simp [hm]) (by simp [hm]) he
  · exact hi.of_frame (hm ▸ hmem) (by simp [hm]) (by simp [hm]) (by simp [hm]) he
  · exact hi.of_machine_eq hm he
  · exact hi.of_frame (hm ▸ writeBytes_memWf rom hmem _) (by simp [hm]) (by simp [hm]) (by simp [hm]) he
  · exact .of_no_error (hm ▸ hostReset_inv h.machine) he
  · obtain ⟨op, hop⟩ := maySkip_error hs
    obtain ⟨hw, hpc⟩ := hi.invalid_pc op hop
    exact .of_no_error (hm ▸ advance_inv hi.machine hw hpc) he
  · exact hi.of_machine_eq hm he

theorem runHost_inv {actions : List HostAction} {h k : Session} (hi : h.Inv) (e : runHost actions h = some k) : k.Inv :=
  runHost_induct (P := fun h k => h.Inv → k.Inv) (fun _ => id) (fun _ _ _ _ ha hrest hi => hrest (apply_inv hi ha))
    actions h k e hi

theorem boot_eq_ok {s : State} {rom : List Byte} {h : Session} (e : Session.boot s rom = .ok h) :
    h.machine = s.hostReset.writeBytes programStart rom ∧ h.error = none := by
  unfold Session.boot State.loadRom at e
  split at e
  · rename_i t ht
    split at ht <;> cases ht
    cases e
    exact ⟨rfl, rfl⟩
  · cases e

theorem runFrom_eq_some {s : State} {rom : List Byte} {actions : List HostAction} {k : Session}
    (e : runFrom s rom actions = some k) : ∃ h, Session.boot s rom = .ok h ∧ runHost actions h = some k := by
  unfold runFrom at e
  split at e
  · rename_i h hb
    exact ⟨h, hb, e⟩
  · cases e

theorem boot_inv {s : State} {rom : List Byte} {h : Session} (e : Session.boot s rom = .ok h) : h.Inv := by
  obtain ⟨hm, he⟩ := boot_eq_ok e
  exact .of_no_error (hm ▸ writeBytes_inv (hostReset_inv s) _ rom) he

/-! ### The obligations of the family -/

/-- Settles O5: every host action keeps the invariant of the session, and a session has it when its run starts. -/
theorem hostRunKeepsInvariant : Obligations.HostRunKeepsInvariant := by
  refine ⟨fun _ _ _ hi e => runHost_inv hi e, fun s rom actions k e => ?_⟩
  obtain ⟨h, hb, hrun⟩ := runFrom_eq_some e
  exact runHost_inv (boot_inv hb) hrun

/-- Settles O14: the fetch's own error, or that of the decoded instruction, whose word is the one that was fetched. -/
theorem faultsInPriorityOrder : Obligations.FaultsInPriorityOrder := by
  intro s e
  rw [step_eq_fault_iff]
  refine and_congr_right fun _ => ⟨?_, ?_⟩
  · rintro (hf | ⟨i, hf, hx⟩)
    · rcases fetchInstr_error hf with hge | ⟨hlt, op, hop, hr⟩
      · exact .inl hge
      · exact .inr ⟨hlt, op, hop, .inl hr⟩
    · obtain ⟨hlt, op, hop, hd⟩ := fetchInstr_ok hf
      obtain ⟨henc, -⟩ := encode_of_decode hd
      refine .inr ⟨hlt, op, hop, .inr ?_⟩
      rcases exec_eq_fault_iff.mp hx with ⟨nnn, rfl, hs, he⟩ | ⟨ign, rfl, hs, he⟩
      · exact .inl ⟨⟨nnn, hd⟩, hs, henc ▸ he⟩
      · exact .inr ⟨⟨ign, hd⟩, hs, henc ▸ he⟩
  · rintro (⟨hge, rfl⟩ | ⟨-, op, hop, ⟨⟨r, hr⟩, rfl⟩ | ⟨⟨nnn, hd⟩, hs, he⟩ | ⟨⟨ign, hd⟩, hs, he⟩⟩)
    · exact .inl (fetchInstr_of_ge hge)
    · exact .inl (fetchInstr_of_decode_error hop hr)
    · obtain ⟨rfl, -⟩ := encode_of_decode hd
      exact .inr ⟨_, fetchInstr_of_decode_ok hop hd, exec_eq_fault_iff.mpr (.inl ⟨nnn, rfl, hs, he⟩)⟩
    · obtain ⟨rfl, -⟩ := encode_of_decode hd
      exact .inr ⟨_, fetchInstr_of_decode_ok hop hd, exec_eq_fault_iff.mpr (.inr ⟨ign, rfl, hs, he⟩)⟩

/-- Settles O53: DT and ST are two counters of the same law, each with its own writer. -/
theorem ticksReachZero : Obligations.TicksReachZero := by
  refine ⟨fun actions h k e hreset => ⟨?_, ?_⟩, fun n h he => ?_⟩
  · exact runHost_counter (counter := State.dt) (fun _ => rfl) (fun _ _ => step_dt)
      (fun _ _ _ ha hst htk hrs => (apply_other_timers ha hst htk hrs).1) e hreset
  · exact runHost_counter (counter := State.st) (fun _ => rfl) (fun _ _ => step_st)
      (fun _ _ _ ha hst htk hrs => (apply_other_timers ha hst htk hrs).2) e hreset
  · exact ⟨_, runHost_replicate_tick n he, ticks_pc n h.machine, rfl, (ChangesOnly.refl _ _).ticks rfl rfl n⟩

/-- Settles O56: the session after an error differs from the one before it in the error alone, and whether the run has
ended is what the policy says of that error. -/
theorem hostAnswersErrorsByPolicy : Obligations.HostAnswersErrorsByPolicy := by
  refine ⟨fun h e hend hf => ?_, fun h a rest hend => ⟨runHost_of_ended hend a rest, fun k hk => ?_⟩,
    fun _ _ _ => apply_answers_error, fun _ => apply_skipInvalid_of_no_error⟩
  · have ha : h.aborted = false := aborted_of_not_ended hend
    have hcall := callStep_of_fault (h := { h with error := some e }) hf
    have hended := ended_of_error (h := { h with error := some e }) ha rfl
    refine ⟨_, (apply_step_of_not_ended hend).trans (callStep_of_fault hf), rfl, rfl, ha, hcall, fun hskip => ?_,
      fun hno => ?_⟩
    · have hgoes := hended.trans ((haltsRun_eq_false_iff _ _).mpr hskip)
      obtain ⟨⟨op, rfl⟩, hp⟩ := hskip
      exact ⟨hgoes, (apply_step_of_not_ended hgoes).trans hcall, skipInvalid_answers_error ha rfl hp⟩
    · rw [hended]
      exact Bool.eq_true_of_not_eq_false (mt (haltsRun_eq_false_iff _ _).mp hno)
  · exact ⟨reset_of_ended hend hk, (apply_cases hk).1⟩

/-- Settles O52: the action is one countdown of each timer, and a pending wait does not stop it. -/
theorem tickDecrementsBoth : Obligations.TickDecrementsBoth := fun h he =>
  ⟨_, apply_tick_of_not_ended he, countDown_toNat _, countDown_toNat _, rfl, rfl,
    (ChangesOnly.refl _ h.machine).tick rfl rfl⟩

/-- Settles O54: the action is one write to the keys, and another key reads as before. -/
theorem setKeyWritesOneKey : Obligations.SetKeyWritesOneKey := fun i p h he =>
  ⟨_, apply_setKey_of_not_ended he i p, by simp, fun j hj => by simp [hj], rfl, rfl,
    (ChangesOnly.refl _ h.machine).setKey rfl i p⟩

end Sys2Proof.Machine
end

section
/-! Family 70_reset_and_hazards: the host action reset (R290), the ROM loader (R296), a first step without a ROM (R297),
and how a new press ends a key wait (R301). -/

namespace Sys2Proof.Machine

/-! ### A new press and the poll (R224, R301) -/

/-- The poll takes the lowest new press, so a press of `k` makes it take some key that is at most `k`. -/
theorem exists_lowestNewPress_le {seen now : Keys} {k : KeyIdx} (hk : newPress seen now k) :
    ∃ j, lowestNewPress seen now = some j ∧ j ≤ k := by
  cases hj : lowestNewPress seen now with
  | none => exact absurd hk ((lowestNewPress_eq_none_iff _ _).mp hj k)
  | some j =>
    obtain ⟨-, hlow⟩ := (lowestNewPress_eq_some_iff _ _ _).mp hj
    exact ⟨j, rfl, hlow k hk⟩

theorem newPress_setKey {seen : Keys} {k : KeyIdx} (hk : seen[k.val] = false) (s : State) :
    newPress seen (s.setKey k true).keys k := ⟨by simp, hk⟩

/-! ### The frame of the ROM loader (R296) -/

theorem ChangesOnly.writeBytes {w : Writes} {s t : State} {a : Nat} {bs : List Byte} (h : ChangesOnly w s t)
    (hw : ∀ j < bs.length, w.mem (BitVec.ofNat 12 (a + j)) = true) : ChangesOnly w s (t.writeBytes a bs) := by
  induction bs generalizing t a with
  | nil => exact h
  | cons b bs ih =>
    have hhead : w.mem (BitVec.ofNat 12 a) = true := hw 0 (by simp)
    have htail (j : Nat) (hj : j < bs.length) : w.mem (BitVec.ofNat 12 (a + 1 + j)) = true := by
      rw [Nat.add_right_comm]
      exact hw (j + 1) (by simpa using hj)
    exact ih (h.writeByte hhead b) htail

theorem loadRom_of_le {rom : List Byte} (hlen : rom.length ≤ romCapacity) (s : State) :
    s.loadRom rom = .ok (s.writeBytes programStart rom) := if_neg (Nat.not_lt.mpr hlen)

theorem loadRom_of_gt {rom : List Byte} (hlen : romCapacity < rom.length) (s : State) :
    s.loadRom rom = .error .romTooLarge := if_pos hlen

/-! ### Loading and reset as host actions (R273) -/

section
variable {h : Session}

theorem apply_loadRom_of_ok {rom : List Byte} {t : State} (he : h.ended = false) (hl : h.machine.loadRom rom = .ok t) :
    (HostAction.loadRom rom).apply h = some { h with machine := t } := by
  simp [HostAction.apply, he, aborted_of_not_ended he, Session.load, hl]

theorem apply_loadRom_of_error {rom : List Byte} {e : LoaderError} (he : h.ended = false)
    (hl : h.machine.loadRom rom = .error e) : (HostAction.loadRom rom).apply h = some h := by
  simp [HostAction.apply, he, aborted_of_not_ended he, Session.load, hl]

theorem apply_reset_of_not_aborted (ha : h.aborted = false) :
    HostAction.reset.apply h = some { machine := h.machine.hostReset } := by
  simp [HostAction.apply, ha]

end

/-! ### The word that a machine without a ROM fetches (R297) -/

/-- Where the font does not reach `programStart`, the first word after reset is 0x0000. -/
theorem resetWith_fetchWord {c : Config} (hfont : c.fontBase.val + fontSize ≤ programStart) :
    (State.resetWith c).fetchWord = .ok 0x0000 := by
  have hzero (a : Addr) (ha : programStart ≤ a.toNat) : (State.resetWith c).readByte a = 0 :=
    (resetWith_readByte c a).trans (resetByte_not_font (.inr (hfont.trans ha)))
  have hpc : (State.resetWith c).pc.toNat = programStart := rfl
  have hlt : (State.resetWith c).pc.toNat + 1 < memSize := by rw [hpc]; decide
  rw [fetchWord_of_lt hlt, hpc, hzero _ (by decide), hzero _ (by decide)]
  rfl

/-! ### The obligations of the family -/

/-- Settles O19: the pressed key is a new press, so the poll takes a key, the lowest of the new presses. -/
theorem newPressEndsTheWait : Obligations.NewPressEndsTheWait := by
  intro s w k hw hk
  obtain ⟨j, hj, hle⟩ := exists_lowestNewPress_le (newPress_setKey hk s)
  exact ⟨_, step_of_newPress (s := s.setKey k true) hw hj, rfl, rfl, (readV_writeV_key_toNat _ _ j).trans_le hle⟩

/-- Settles O55: a ROM within the capacity ends inside memory, so its addresses do not wrap. -/
theorem loadRomWritesImage : Obligations.LoadRomWritesImage := by
  refine fun rom h he => ⟨fun hlen => ?_, fun hlen => ?_⟩
  · have hload := loadRom_of_le hlen h.machine
    have hfits : 0x200 + rom.length ≤ 4096 := by omega
    refine ⟨_, hload, apply_loadRom_of_ok he hload, writeBytes_readByte_stored rom h.machine 0x200 hfits,
      writeBytes_pc _ _ _, (ChangesOnly.refl _ h.machine).writeBytes fun j hj => ?_⟩
    simp only [programStart, decide_eq_true_iff, BitVec.toNat_ofNat]
    omega
  · have hload := loadRom_of_gt hlen h.machine
    exact ⟨hload, apply_loadRom_of_error he hload⟩

/-- Settles O2: the action may be performed in every session not aborted, and its session has no error. -/
theorem hostResetReinitialisesEverything : Obligations.HostResetReinitialisesEverything := fun _ ha =>
  ⟨_, apply_reset_of_not_aborted ha, rfl, rfl⟩

/-- Settles O57: the default font ends below 0x200, and the word 0x0000 matches no row of R84. -/
theorem firstStepWithoutRomFaults : Obligations.FirstStepWithoutRomFaults := by
  have hword : State.reset.fetchWord = .ok 0x0000 := resetWith_fetchWord (c := defaultConfig) (by decide)
  have hdecode : decode State.reset.config.strictDecode 0x0000 = .error (.invalid 0x0000) := by decide
  exact step_of_fetch_error rfl (fetchInstr_of_decode_error hword hdecode)

end Sys2Proof.Machine
end
